-- ==== Sys2Proof/Word.lean ====
section
/-! DEFINITION. The word types of the SPN-LC engine (spec/00_scope.md R6, R8, R9; spec/20_memory.md R80). -/

namespace Sys2Proof

/-- A 32-bit register or command word, the width of every bus access (R80). -/
abbrev Word := BitVec 32

/-- A 16-bit Block (R6): source position `i` is bit `15 - i` (R8). -/
abbrev Block := BitVec 16

/-- A 4-bit nibble, an entry of the S-box, its inverse or the P-box (R9, R30). -/
abbrev Nibble := BitVec 4

/-- One byte lane of the bus (R75). -/
abbrev Byte := BitVec 8

end Sys2Proof
end

