-- ==== Sys2Proof/Machine/Ram.lean ====
section
/-! DEFINITION. The internal arrays (spec/10_state.md R52 to R54): a fixed number of entries, every one of them holding a value.
A `Ram α d` is a full binary tree with the 2^d entries as its leaves, addressed by a `d`-bit index. Its shape is fixed by its type,
so two arrays with the same entries are the same data (log 18). -/

namespace Sys2Proof.Machine

/-- An array of 2^d entries, addressed by `d` bits. -/
inductive Ram (α : Type) : Nat → Type where
  | leaf (entry : α) : Ram α 0
  | node {d : Nat} (lo hi : Ram α d) : Ram α (d + 1)
deriving DecidableEq, Repr

/-- Entry `i`: the index's most significant bit selects the half. -/
def Ram.get {α : Type} : {d : Nat} → Ram α d → BitVec d → α
  | 0, .leaf a, _ => a
  | d + 1, .node lo hi, i => if i.msb then hi.get (i.setWidth d) else lo.get (i.setWidth d)

/-- The array with entry `i` replaced. -/
def Ram.set {α : Type} : {d : Nat} → Ram α d → BitVec d → α → Ram α d
  | 0, .leaf _, _, a => .leaf a
  | d + 1, .node lo hi, i, a =>
    if i.msb then .node lo (hi.set (i.setWidth d) a) else .node (lo.set (i.setWidth d) a) hi

/-- The array whose entry `i` is `f i`: every entry written. -/
def Ram.tabulate {α : Type} : (d : Nat) → (BitVec d → α) → Ram α d
  | 0, f => .leaf (f 0#0)
  | d + 1, f => .node (Ram.tabulate d fun i => f (i.cons false)) (Ram.tabulate d fun i => f (i.cons true))

end Sys2Proof.Machine
end

