-- ==== Sys2Proof/Machine/Types.lean ====
section
/-! DEFINITION. The data the state is made of: registers with fields, array entries, bus accesses and their responses
(spec/10_state.md, spec/20_memory.md R70, R71, R74). -/

namespace Sys2Proof.Machine

/-- A table of 16 nibbles in a pair of registers, x_LO and x_HI (R27 to R29). -/
structure Table where
  lo : Word
  hi : Word
deriving DecidableEq, Repr

/-- The constants interface: S-box, inverse S-box, P-box and the five subkeys (R27 to R31). -/
structure CipherConfig where
  sbox  : Table
  sboxi : Table
  pbox  : Table
  k1 : Block
  k2 : Block
  k3 : Block
  k4 : Block
  k5 : Block
deriving DecidableEq, Repr

/-- The outcome codes of R261. Codes 7 to 15 are never written, so they have no name. -/
inductive ErrCode where
  | ok
  | invalidSbox
  | invalidPermutation
  | malformedCodebook
  | ambiguousKeyRecovery
  | invalidRelation
  | illegalCommand
deriving DecidableEq, Repr

/-- How a command ends: CODE, SUB and INFO (R260, R261). -/
structure Report where
  code : ErrCode
  sub  : BitVec 4
  info : Block
deriving DecidableEq, Repr

/-- The ERR register (R24). -/
structure ErrReg where
  code   : ErrCode
  sub    : BitVec 4
  info   : Block
  lastOp : BitVec 8
deriving DecidableEq, Repr

/-- ATK_STATUS.OUTCOME (R37). -/
inductive AttackOutcome where
  | notRun
  | unique
  | none
  | multiple
deriving DecidableEq, Repr

/-- The ATK_STATUS register's fields (R37). -/
structure AtkStatus where
  outcome   : AttackOutcome
  folded    : Bool
  tgt       : Nibble
  survivors : BitVec 9
deriving DecidableEq, Repr

/-- An entry of the candidate RAM (R54). -/
structure CandEntry where
  count : BitVec 17
  inuse : Bool
  pass  : Bool
deriving DecidableEq, Repr

/-- The width of a bus transfer. Only `word` is legal (R74). -/
inductive BusWidth where
  | byte
  | half
  | word
deriving DecidableEq, Repr

/-- One input from outside the engine, for one engine step (R13, R70, R71, R300). `off` is paddr, the byte offset within the
window (R72). -/
inductive HostAction where
  /-- A cycle in which the host makes no access. -/
  | idle
  /-- A bus read. -/
  | read (off : BitVec 8) (width : BusWidth)
  /-- A bus write, with its byte strobes. -/
  | write (off : BitVec 8) (width : BusWidth) (strobes : BitVec 4) (data : Word)
  /-- `rst_n = 0` at a rising edge of the clock. -/
  | reset
deriving DecidableEq, Repr

/-- What the host receives for one access (R14, R74). -/
inductive BusResponse where
  /-- A read's prdata and pslverr. -/
  | read (data : Word) (slverr : Bool)
  /-- A write's pslverr. -/
  | write (slverr : Bool)
deriving DecidableEq, Repr

/-- The registers of the window (R20). -/
inductive Reg where
  | id | ctrl | status | err | cmd | encResult
  | sboxLo | sboxHi | sboxiLo | sboxiHi | pboxLo | pboxHi
  | k1 | k2 | k3 | k4 | k5
  | atkPmask | atkUmask | atkThresh | knownVal | knownMask
  | atkStatus | atkWinner | atkBest | atkBestDev
  | candIdx | candCount | candDev
  | latIdx | latData
  | cbIdx | cbData | cbLoad | cbLoadStat
deriving DecidableEq, Repr

end Sys2Proof.Machine
end

