-- ==== Sys2Proof/Machine/Bits.lean ====
section
/-! DEFINITION. Bit positions, nibbles, parity, counting and table entries (spec/00_scope.md R8, R9, R11;
spec/10_state.md R27 to R30). -/

namespace Sys2Proof.Machine

/-- Source position `i` of a Block: position 0 is the most significant bit (R8). -/
def pos (v : Block) (i : Nat) : Bool := v.getLsbD (15 - i)

/-- The Block with a 1 at source position `i` only (R8). -/
def posMask (i : Nat) : Block := 1#16 <<< (15 - i)

/-- Nibble `j` of a Block, v[15-4j : 12-4j]: nibble 0 is the most significant (R9). -/
def nib (v : Block) (j : Nat) : Nibble := v.extractLsb' (12 - 4 * j) 4

/-- The mask of the bits of nibble `j`: 0xF << (12 - 4j) (R9, R192). -/
def nibMask (j : Nat) : Block := 0xF#16 <<< (12 - 4 * j)

/-- A Block with nibble `j` replaced by `n` (R9). -/
def setnib (v : Block) (j : Nat) (n : Nibble) : Block :=
  (v &&& ~~~ nibMask j) ||| (n.setWidth 16 <<< (12 - 4 * j))

/-- Four nibbles in positional order, the first the most significant: `a : b : c : d` of R130. -/
def joinNibbles (a b c d : Nibble) : Block := a ++ b ++ c ++ d

/-- The XOR of the lowest `n` bits. -/
def parityBelow {w : Nat} (v : BitVec w) : Nat → Bool
  | 0 => false
  | n + 1 => v.getLsbD n ^^ parityBelow v n

/-- The XOR of all bits (R11). -/
def parity {w : Nat} (v : BitVec w) : Bool := parityBelow v w

/-- The number of 1 bits (R11). -/
def popcount {w : Nat} (v : BitVec w) : Nat := (List.range w).countP v.getLsbD

/-- Entry `x` of a table held in a LO and HI register pair (R27 to R30). -/
def Table.entry (t : Table) (x : Nibble) : Nibble :=
  if x.toNat < 8 then t.lo.extractLsb' (4 * x.toNat) 4 else t.hi.extractLsb' (4 * (x.toNat - 8)) 4

/-- The 16 nibbles in ascending order: ALL of R137. -/
def allNibbles : List Nibble := (List.range 16).map (BitVec.ofNat 4)

end Sys2Proof.Machine
end

