-- ==== Sys2Proof/Syntax.lean ====
section
/-! DEFINITION. The command set SPNLC-CMD, version 1: one constructor per row of the opcode map
(spec/30_encoding.md R106). -/

namespace Sys2Proof

/-- A command (R2, R106). An operand has the width of its field, so no value outside it can be written. -/
inductive Instr where
  /-- ENCRYPT pt: encrypt one block (R104, R141). -/
  | encrypt (pt : Block)
  /-- GEN_CODEBOOK: encrypt every plaintext into the codebook RAM (R142). -/
  | genCodebook
  /-- BUILD_LAT: compute the linear approximation table (R173). -/
  | buildLat
  /-- CB_LOAD_BEGIN: start a codebook load (R231). -/
  | cbLoadBegin
  /-- CB_LOAD_END: finish a codebook load and judge it (R233). -/
  | cbLoadEnd
  /-- ATTACK_STEP tgt[, fold]: score every candidate of one key group and decide (R105, R199). -/
  | attackStep (tgt : Nibble) (fold : Bool)
  /-- VALIDATE: check the cipher configuration (R143). -/
  | validate
deriving DecidableEq, Repr

end Sys2Proof
end

