-- ==== Sys2Proof/WellFormed.lean ====
section
/-! DEFINITION. Well-formed command words and commands (spec/30_encoding.md R103, R106, R109).
A word is well-formed when it matches a row of the opcode map. A command of `Instr` is well-formed whatever its operands: each
operand has exactly the width of its field, and a value that a command's own checks refuse does not make the word illegal (R109). -/

namespace Sys2Proof

/-- One row of the opcode map (R106): a word matches the row when `w AND mask = match`. -/
structure OpcodeRow where
  opc      : BitVec 8
  mnemonic : String
  matchBits : Word
  mask     : Word
deriving DecidableEq, Repr

/-- The opcode map, row by row (R106). -/
def opcodeMap : List OpcodeRow :=
  [ ⟨0x01#8, "ENCRYPT",       0x00000001#32, 0x0000FFFF#32⟩,
    ⟨0x02#8, "GEN_CODEBOOK",  0x00000002#32, 0xFFFFFFFF#32⟩,
    ⟨0x03#8, "BUILD_LAT",     0x00000003#32, 0xFFFFFFFF#32⟩,
    ⟨0x04#8, "CB_LOAD_BEGIN", 0x00000004#32, 0xFFFFFFFF#32⟩,
    ⟨0x05#8, "CB_LOAD_END",   0x00000005#32, 0xFFFFFFFF#32⟩,
    ⟨0x06#8, "ATTACK_STEP",   0x00000006#32, 0xFFFFE0FF#32⟩,
    ⟨0x07#8, "VALIDATE",      0x00000007#32, 0xFFFFFFFF#32⟩ ]

/-- The word's OPC is a row of the opcode map (first test of R103). -/
def assignedOpcode (w : Word) : Bool :=
  opcodeMap.any fun row => decide (w.extractLsb' 0 8 = row.opc)

/-- The word matches a row of the opcode map: its OPC is assigned and no reserved bit is set (R103, R106). -/
def wellFormedWord (w : Word) : Bool :=
  opcodeMap.any fun row => decide (w &&& row.mask = row.matchBits)

/-- A command is well-formed: nothing is left to check once the operands have their fields' widths (R104, R105, R109). -/
def Instr.wellFormed : Instr → Bool
  | .encrypt _ => true
  | .genCodebook => true
  | .buildLat => true
  | .cbLoadBegin => true
  | .cbLoadEnd => true
  | .attackStep _ _ => true
  | .validate => true

end Sys2Proof
end

