-- ==== Sys2Proof/Decode.lean ====
section
/-! DEFINITION. Decoding a command word, total on every word, and encoding a command
(spec/30_encoding.md R100, R103 to R108, R111; byte lanes spec/20_memory.md R75). -/

namespace Sys2Proof

/-- Why a word is no command; the SUB of ILLEGAL_COMMAND (R103). -/
inductive IllegalWord where
  /-- Its OPC is no row of the opcode map (R103, R108): sub 1. -/
  | unassignedOpcode
  /-- Its OPC is assigned and a bit outside the opcode's fields is 1 (R103): sub 2. -/
  | reservedBit
  /-- Not four bytes: no command word at all (R100). Only `decodeBytes` answers so; no CMD write has another width (R74). -/
  | wrongLength
deriving DecidableEq, Repr

/-- OPC, bits [7:0] (R100). -/
def opcField (w : Word) : BitVec 8 := w.extractLsb' 0 8

/-- PT, bits [31:16] (R104). -/
def ptField (w : Word) : Block := w.extractLsb' 16 16

/-- TGT, bits [11:8] (R105). -/
def tgtField (w : Word) : Nibble := w.extractLsb' 8 4

/-- FOLD, bit 12 (R105). -/
def foldField (w : Word) : Bool := w.getLsbD 12

/-- The command, unless a bit of the opcode's reserved mask is set (R103, R106). -/
def withReserved (w reservedMask : Word) (i : Instr) : Except IllegalWord Instr :=
  if w &&& reservedMask = 0#32 then .ok i else .error .reservedBit

/-- Decode at completion (R103): first the opcode, then the reserved bits, by the opcode map of R106. -/
def decode (w : Word) : Except IllegalWord Instr :=
  if opcField w = 0x01#8 then withReserved w 0x0000FF00#32 (.encrypt (ptField w))
  else if opcField w = 0x02#8 then withReserved w 0xFFFFFF00#32 .genCodebook
  else if opcField w = 0x03#8 then withReserved w 0xFFFFFF00#32 .buildLat
  else if opcField w = 0x04#8 then withReserved w 0xFFFFFF00#32 .cbLoadBegin
  else if opcField w = 0x05#8 then withReserved w 0xFFFFFF00#32 .cbLoadEnd
  else if opcField w = 0x06#8 then withReserved w 0xFFFFE000#32 (.attackStep (tgtField w) (foldField w))
  else if opcField w = 0x07#8 then withReserved w 0xFFFFFF00#32 .validate
  else .error .unassignedOpcode

/-- The command word of a command (R111), written as the opcode map's pattern of bits, most significant first (R106). -/
def encode : Instr → Word
  | .encrypt pt => pt ++ 0x0001#16
  | .genCodebook => 0x00000002#32
  | .buildLat => 0x00000003#32
  | .cbLoadBegin => 0x00000004#32
  | .cbLoadEnd => 0x00000005#32
  | .attackStep tgt fold => 0#19 ++ BitVec.ofBool fold ++ tgt ++ 0x06#8
  | .validate => 0x00000007#32

/-- The mnemonic of a command (R106, R111). -/
def Instr.mnemonic : Instr → String
  | .encrypt _ => "ENCRYPT"
  | .genCodebook => "GEN_CODEBOOK"
  | .buildLat => "BUILD_LAT"
  | .cbLoadBegin => "CB_LOAD_BEGIN"
  | .cbLoadEnd => "CB_LOAD_END"
  | .attackStep _ _ => "ATTACK_STEP"
  | .validate => "VALIDATE"

/-- Byte lane `k` of a word: bits [8k+7 : 8k] (R75). -/
def byteLane (w : Word) (k : Nat) : Byte := w.extractLsb' (8 * k) 8

/-- The four byte lanes of a word, lowest address first (R75). -/
def toBytes (w : Word) : List Byte := [byteLane w 0, byteLane w 1, byteLane w 2, byteLane w 3]

/-- A word from its four byte lanes, lowest address first (R75). -/
def ofBytes (b0 b1 b2 b3 : Byte) : Word := b3 ++ b2 ++ b1 ++ b0

/-- Decoding of any bytes as the host lays a command word out: four bytes, little-endian (R75, R100). -/
def decodeBytes : List Byte → Except IllegalWord Instr
  | [b0, b1, b2, b3] => decode (ofBytes b0 b1 b2 b3)
  | _ => .error .wrongLength

/-- The command the decoder reads from a word given by the bits of an opcode-table row: the low `nbits` bits of `w`, the bits
above them 0. -/
def decodeTableWord (nbits w : Nat) : Option Instr :=
  match decodeBytes (toBytes (BitVec.ofNat 32 (w % 2 ^ nbits))) with
  | .ok i => some i
  | .error _ => none

end Sys2Proof
end

