-- ==== Sys2Proof/Config.lean ====
section
/-! DEFINITION. What the spec fixes as parameters (spec/00_scope.md R6, R7) and what it leaves open
(spec/93_implementation_defined.md section 1). An open value is an opaque constant with no body: nothing can prove
what it is, so a claim holds whatever it is. -/

namespace Sys2Proof.Config

/-- N, the number of codebook pairs and attack samples (R6). -/
def samples : Nat := 65536

/-- N_HALF, the count expected under a random hypothesis (R6, R200). -/
def half : Int := 32768

/-- G_MAX_NIBBLES, the most target nibbles of one attack step (R7). -/
def maxTargetNibbles : Nat := 2

/-- The constant the ID register reads: "SPN" and version 1 (R21). -/
def idValue : Word := 0x53504E01#32

/-- The page of the host's address map that holds the register window (R72: SPN_BASE is a parameter, a multiple of 256).
Free value, log 7. -/
opaque windowPage : Nat

/-- SPN_BASE (R7, R72). -/
def spnBase : Nat := 256 * windowPage

/-- The engine steps of one issued command beyond the first (R305). Free value, log 3: it may differ by command, by operand
and from one issue to the next. -/
opaque latencyExtra (draw : Nat) (command : Word) : Nat

/-- LATENCY: finite and at least 1 (R7, R305). -/
def latency (draw : Nat) (command : Word) : Nat := latencyExtra draw command + 1

/-- What a read of the write set of the command in flight returns (R79). Free value, log 4. -/
opaque anyRead (draw : Nat) : Word

/-- The codebook RAM's contents after a reset (R52, R302). Free value, log 5. -/
opaque cbPowerUp (draw : Nat) (p : Block) : Block

/-- The LAT RAM's contents after a reset (R53, R302). Free value, log 5. -/
opaque latPowerUp (draw : Nat) (index : BitVec 8) : BitVec 5

/-- The COUNT fields of the candidate RAM after a reset (R54, R302). Free value, log 5. -/
opaque candCountPowerUp (draw : Nat) (v : BitVec 8) : BitVec 17

/-- The INUSE bits of the candidate RAM after a reset (R54, R302). Free value, log 5. -/
opaque candInusePowerUp (draw : Nat) (v : BitVec 8) : Bool

/-- The PASS bits of the candidate RAM after a reset (R54, R302). Free value, log 5. -/
opaque candPassPowerUp (draw : Nat) (v : BitVec 8) : Bool

/-- CMD_PENDING after a reset (R55, R300). Free value, log 6. -/
opaque cmdPendingPowerUp (draw : Nat) : Word

end Sys2Proof.Config
end

