-- ==== Sys2Proof/Machine/ResetValues.lean ====
section
/-! DEFINITION. The reset values that are not 0 (spec/70_reset_and_hazards.md R300; spec/10_state.md R27 to R31) and the free
contents of the RAMs after a reset (R52 to R54, R302; log 5). -/

namespace Sys2Proof.Machine

/-- The reset configuration: the source's worked example with the P-box of R29 (R300). -/
def resetConfig : CipherConfig where
  sbox  := ⟨0x9AB83C04#32, 0x1F5672ED#32⟩
  sboxi := ⟨0xBCD03AF1#32, 0xE9825674#32⟩
  pbox  := ⟨0xD951C840#32, 0xFB73EA62#32⟩
  k1 := 0x1024#16
  k2 := 0x1FE5#16
  k3 := 0x37CF#16
  k4 := 0xD431#16
  k5 := 0xCF84#16

/-- ERR after reset (R24). -/
def resetErr : ErrReg := ⟨.ok, 0#4, 0#16, 0#8⟩

/-- ATK_STATUS after reset: no attack has run (R37). -/
def resetAtkStatus : AtkStatus := ⟨.notRun, false, 0#4, 0#9⟩

/-- The codebook RAM after the reset that made draw `n` (R52, R302). -/
def resetCb (n : Nat) : Ram Block 16 := Ram.tabulate 16 (Config.cbPowerUp n)

/-- The LAT RAM after the reset that made draw `n` (R53, R302). -/
def resetLat (n : Nat) : Ram (BitVec 5) 8 := Ram.tabulate 8 (Config.latPowerUp n)

/-- The candidate RAM after the reset that made draw `n` (R54, R302). -/
def resetCand (n : Nat) : Ram CandEntry 8 :=
  Ram.tabulate 8 fun v =>
    ⟨Config.candCountPowerUp n v, Config.candInusePowerUp n v, Config.candPassPowerUp n v⟩

end Sys2Proof.Machine
end

