-- ==== Sys2Proof/Machine/State.lean ====
section
/-! DEFINITION. The state of the engine and its two agents, the reasons a step could stop, and reset
(spec/10_state.md, spec/00_scope.md R13, R14, spec/70_reset_and_hazards.md R300). -/

namespace Sys2Proof.Machine

/-- The faults of the machine: none. The spec gives the block no condition that stops it: a command's error is an outcome in
ERR (R260, R261), and an illegal bus access is answered with pslverr and changes nothing (R74, R265). -/
inductive Fault where
deriving DecidableEq, Repr

/-- The refusals of the machine. -/
inductive Refusal where
  /-- Raised by an arm of `exec` whose instruction has no meaning yet; no arm raises it. Safe: the machine stops. -/
  | notModelled (mnemonic : String)
deriving DecidableEq, Repr

/-- Everything the spec gives the machine. A register with reserved bits is held by its implemented bits (R51). -/
structure State where
  /-- CTRL.IRQ_EN (R22). -/
  irqEn : Bool
  /-- STATUS.BUSY (R23, R55). -/
  busy : Bool
  /-- STATUS.DONE (R23). -/
  done : Bool
  /-- STATUS.CB_VALID (R23). -/
  cbValid : Bool
  /-- STATUS.LAT_VALID (R23). -/
  latValid : Bool
  /-- STATUS.CB_LOADING (R23, R56). -/
  cbLoading : Bool
  /-- STATUS.BUSY_VIOL (R23). -/
  busyViol : Bool
  /-- ERR (R24). -/
  err : ErrReg
  /-- ENC_RESULT.CT (R26). -/
  encResult : Block
  /-- SBOX, SBOXI, PBOX, K1 to K5 (R27 to R31). -/
  cfg : CipherConfig
  /-- ATK_PMASK (R32). -/
  atkPmask : Block
  /-- ATK_UMASK (R33). -/
  atkUmask : Block
  /-- ATK_THRESH (R34). -/
  atkThresh : Block
  /-- KNOWN_VAL (R35). -/
  knownVal : Block
  /-- KNOWN_MASK (R36). -/
  knownMask : Block
  /-- ATK_STATUS (R37). -/
  atkStatus : AtkStatus
  /-- ATK_WINNER (R38). -/
  atkWinner : BitVec 8
  /-- ATK_BEST (R39). -/
  atkBest : BitVec 8
  /-- ATK_BEST_DEV (R40). -/
  atkBestDev : Word
  /-- CAND_IDX (R41). -/
  candIdx : BitVec 8
  /-- LAT_IDX: A in [7:4], B in [3:0] (R44). -/
  latIdx : BitVec 8
  /-- CB_IDX (R46). -/
  cbIdx : Block
  /-- The codebook RAM CB (R52). -/
  cb : Ram Block 16
  /-- The LAT RAM: entry LAT[a][b] at index a ++ b (R53). -/
  lat : Ram (BitVec 5) 8
  /-- The candidate RAM CAND (R54). -/
  cand : Ram CandEntry 8
  /-- CMD_PENDING (R55). -/
  cmdPending : Word
  /-- LOAD_COUNT (R56). -/
  loadCount : BitVec 17
  /-- LOAD_OVF (R56). -/
  loadOvf : Bool
  /-- LOAD_ORD (R56). -/
  loadOrd : Bool
  /-- The engine steps left until the command in flight completes (R305). -/
  remaining : Nat
  /-- The model's own field: how many free values have been drawn (log 8). -/
  draws : Nat
  /-- The inputs still to come, in order (R13, R84). -/
  hostQueue : List HostAction
  /-- What the host has received, newest first (R14). -/
  busLog : List BusResponse
deriving DecidableEq, Repr

/-- The block right after a reset that spends draw `n` (R300, R302), with the agents' sides given: the inputs still to come and what
the host has received are not the block's, and a reset leaves them (log 14). -/
def State.resetWith (n : Nat) (queue : List HostAction) (log : List BusResponse) : State where
  irqEn := false
  busy := false
  done := false
  cbValid := false
  latValid := false
  cbLoading := false
  busyViol := false
  err := resetErr
  encResult := 0#16
  cfg := resetConfig
  atkPmask := 0#16
  atkUmask := 0#16
  atkThresh := 0#16
  knownVal := 0#16
  knownMask := 0#16
  atkStatus := resetAtkStatus
  atkWinner := 0#8
  atkBest := 0#8
  atkBestDev := 0#32
  candIdx := 0#8
  latIdx := 0#8
  cbIdx := 0#16
  cb := resetCb n
  lat := resetLat n
  cand := resetCand n
  cmdPending := Config.cmdPendingPowerUp n
  loadCount := 0#17
  loadOvf := false
  loadOrd := false
  remaining := 0
  draws := n + 1
  hostQueue := queue
  busLog := log

/-- The machine right after power-on reset (R300): no input waiting, nothing received. -/
def State.reset : State := State.resetWith 0 [] []

end Sys2Proof.Machine
end

