-- ==== Sys2Proof/Machine/Flags.lean ====
section
/-! DEFINITION. The flags and the registers made of fields: how STATUS, ERR, ATK_STATUS, CAND_COUNT and CB_LOAD_STAT read, what
a write of STATUS clears, and the irq output (spec/10_state.md R23, R24, R37, R42, R49; spec/60_exceptions.md R261, R269). -/

namespace Sys2Proof.Machine

/-- Bit `i` of a register that holds the flag `b`. -/
def flagBit (i : Nat) (b : Bool) : Word := (BitVec.ofBool b).setWidth 32 <<< i

/-- STATUS as it reads (R23). -/
def statusWord (s : State) : Word :=
  flagBit 0 s.busy ||| flagBit 1 s.done ||| flagBit 2 s.cbValid ||| flagBit 3 s.latValid |||
    flagBit 4 s.cbLoading ||| flagBit 5 s.busyViol

/-- A write of STATUS: 1 clears DONE (bit 1) and BUSY_VIOL (bit 5), and the other bits ignore it (R23). Writing 1 to DONE is the
host's acknowledgement, the return of R271. -/
def writeStatus (v : Word) (s : State) : State :=
  { s with done := s.done && !v.getLsbD 1, busyViol := s.busyViol && !v.getLsbD 5 }

/-- The number of an outcome code (R261). -/
def ErrCode.bits : ErrCode → BitVec 4
  | .ok => 0#4
  | .invalidSbox => 1#4
  | .invalidPermutation => 2#4
  | .malformedCodebook => 3#4
  | .ambiguousKeyRecovery => 4#4
  | .invalidRelation => 5#4
  | .illegalCommand => 6#4

/-- ERR as it reads: LAST_OP [31:24], INFO [23:8], SUB [7:4], CODE [3:0] (R24). -/
def errWord (e : ErrReg) : Word := e.lastOp ++ e.info ++ e.sub ++ e.code.bits

/-- The number of an attack's outcome (R37). -/
def AttackOutcome.bits : AttackOutcome → BitVec 2
  | .notRun => 0#2
  | .unique => 1#2
  | .none => 2#2
  | .multiple => 3#2

/-- ATK_STATUS as it reads: SURVIVORS [24:16], TGT [7:4], FOLDED [2], OUTCOME [1:0] (R37). -/
def atkStatusWord (a : AtkStatus) : Word :=
  0#7 ++ a.survivors ++ 0#8 ++ a.tgt ++ 0#1 ++ BitVec.ofBool a.folded ++ a.outcome.bits

/-- CAND_COUNT as it reads an entry: PASS [31], INUSE [30], COUNT [16:0] (R42). -/
def candCountWord (c : CandEntry) : Word :=
  BitVec.ofBool c.pass ++ BitVec.ofBool c.inuse ++ 0#13 ++ c.count

/-- CAND_DEV as it reads an entry: the count's deviation from N/2 while the entry is in use, else 0 (R43). -/
def candDevWord (c : CandEntry) : Word :=
  if c.inuse then BitVec.ofInt 32 ((c.count.toNat : Int) - Config.half) else 0#32

/-- CB_LOAD_STAT as it reads: ORDER [25], OVERFLOW [24], COUNT [16:0] (R49). -/
def cbLoadStatWord (s : State) : Word :=
  0#6 ++ BitVec.ofBool s.loadOrd ++ BitVec.ofBool s.loadOvf ++ 0#7 ++ s.loadCount

/-- The irq output, a level (R269). -/
def irq (s : State) : Bool := s.irqEn && s.done

end Sys2Proof.Machine
end

