-- ==== Sys2Proof/Machine/Ops.lean ====
section
/-! DEFINITION. The shared operations of the command interface: acceptance, and completion, which is the block's way of taking an
exception (spec/30_encoding.md R101 to R103; spec/60_exceptions.md R260 to R263, R270). The return from it, the host's
acknowledgement (R271), is `writeStatus` of Flags.lean or the next acceptance. -/

namespace Sys2Proof.Machine

/-- Success: CODE 0, SUB 0, INFO 0 (R261). -/
def Report.ok : Report := ⟨.ok, 0#4, 0#16⟩

/-- The completion of the command in flight with the report `r`: ERR takes it beside LAST_OP, BUSY <- 0, DONE <- 1, all in one
transition (R102, R262). No engine step is left. -/
def complete (r : Report) (s : State) : State :=
  { s with
    err := ⟨r.code, r.sub, r.info, s.cmdPending.extractLsb' 0 8⟩
    busy := false
    done := true
    remaining := 0 }

/-- A fatal error: the command ends at once with no effect but ERR, BUSY and DONE (R12, R260, R263). A meaning applies it to the state
at its entry, so nothing of the command stays written. -/
def raiseError (r : Report) (s : State) : State := complete r s

/-- The outcome of a command whose checks answer `fault?`: the fatal error they name, or else the completion `done` (R260). -/
@[inline] def checked (fault? : Option Report) (s : State) (done : State) : Host.Outcome State Fault Refusal :=
  match fault? with
  | some r => .next (raiseError r s)
  | none => .next done

/-- ILLEGAL_COMMAND with the sub-cause of R103 and the OPC as INFO. -/
def illegalReport (e : IllegalWord) (w : Word) : Report :=
  ⟨.illegalCommand, if e = .unassignedOpcode then 1#4 else 2#4, (opcField w).setWidth 16⟩

/-- The completion of a word in flight that is no command (R103, R108). -/
def completeIllegal (e : IllegalWord) (s : State) : State := raiseError (illegalReport e s.cmdPending) s

/-- Acceptance of a word written to CMD while BUSY = 0 (R101), which fixes the command's LATENCY (R305; log 3). -/
def accept (w : Word) (s : State) : State :=
  { s with
    cmdPending := w
    busy := true
    done := false
    remaining := Config.latency s.draws w }

/-- One engine step of the command in flight that is not its last (R305): nothing the host can see changes (R306). -/
def engineTick (s : State) : State := { s with remaining := if s.busy then s.remaining - 1 else s.remaining }

/-- The command in flight completes at this engine step (R102, R305). -/
def completionDue (s : State) : Bool := s.busy && decide (s.remaining ≤ 1)

/-- The command in flight, where there is one and its word is legal (R55, R103). -/
def inFlight (s : State) : Option Instr :=
  if s.busy then (match decode s.cmdPending with | .ok i => some i | .error _ => none) else none

end Sys2Proof.Machine
end

