-- ==== Sys2Proof/Machine/Cipher.lean ====
section
/-! DEFINITION. The cipher engine: layer primitives, configuration checks, ENCRYPT, GEN_CODEBOOK, VALIDATE
(spec/40_cipher_engine.md R130 to R143). -/

namespace Sys2Proof.Machine

/-- SUB and SUBINV: a table applied to each nibble, nibble order kept (R130, R131). -/
def substitute (t : Table) (v : Block) : Block :=
  joinNibbles (t.entry (nib v 0)) (t.entry (nib v 1)) (t.entry (nib v 2)) (t.entry (nib v 3))

/-- PERM: input position `i` moves to output position PBOX[i] (R132). Meaningful when PBOX is a bijection; no command reaches it
otherwise (log 11). -/
def permute (pbox : Table) (v : Block) : Block :=
  (List.range 16).foldl
    (fun o i => if pos v i then o ||| posMask (pbox.entry (BitVec.ofNat 4 i)).toNat else o) 0#16

/-- PERMINV: the v with pos(v, i) = pos(o, PBOX[i]) (R133). No command uses it. -/
def permuteInv (pbox : Table) (o : Block) : Block :=
  (List.range 16).foldl
    (fun v i => if pos o (pbox.entry (BitVec.ofNat 4 i)).toNat then v ||| posMask i else v) 0#16

/-- One of the rounds 1 to 3: key mixing, substitution, permutation (R134). -/
def fullRound (c : CipherConfig) (w k : Block) : Block := permute c.pbox (substitute c.sbox (w ^^^ k))

/-- U_4, the state just before the final substitution (R134). -/
def lastRoundInput (c : CipherConfig) (p : Block) : Block :=
  fullRound c (fullRound c (fullRound c p c.k1) c.k2) c.k3 ^^^ c.k4

/-- E(p), the encryption function (R134, R135). -/
def encryptBlock (c : CipherConfig) (p : Block) : Block := substitute c.sbox (lastRoundInput c p) ^^^ c.k5

/-- min(ALL \ image(T)), where T is no bijection (R137). -/
def missingEntry (t : Table) : Option Nibble :=
  allNibbles.find? fun y => !allNibbles.any fun x => decide (t.entry x = y)

/-- The smallest x with SBOXI[SBOX[x]] != x (R137). -/
def inverseMismatch (c : CipherConfig) : Option Nibble :=
  allNibbles.find? fun x => decide (c.sboxi.entry (c.sbox.entry x) ≠ x)

/-- INVALID_SBOX with its sub-cause and failing value (R137, R261). -/
def invalidSbox (sub : BitVec 4) (x : Nibble) : Report := ⟨.invalidSbox, sub, x.setWidth 16⟩

/-- CHECK_SBOX_FWD (R138): the fatal error, or none where the check passes. -/
def checkSboxFwd (c : CipherConfig) : Option Report := (missingEntry c.sbox).map (invalidSbox 1#4)

/-- CHECK_SBOX (R137): the first failing test decides. -/
def checkSbox (c : CipherConfig) : Option Report :=
  match missingEntry c.sbox with
  | some y => some (invalidSbox 1#4 y)
  | none =>
    match missingEntry c.sboxi with
    | some y => some (invalidSbox 2#4 y)
    | none => (inverseMismatch c).map (invalidSbox 3#4)

/-- CHECK_PBOX (R139). -/
def checkPbox (c : CipherConfig) : Option Report :=
  (missingEntry c.pbox).map fun y => ⟨.invalidPermutation, 1#4, y.setWidth 16⟩

/-- CHECK_CIPHER: the S-box check, then the P-box check (R140). -/
def checkCipher (c : CipherConfig) : Option Report :=
  match checkSbox c with
  | some r => some r
  | none => checkPbox c

/-- ENCRYPT (R141). -/
def execEncrypt (pt : Block) (s : State) : Host.Outcome State Fault Refusal :=
  checked (checkCipher s.cfg) s (complete .ok { s with encResult := encryptBlock s.cfg pt })

/-- GEN_CODEBOOK (R142): the codebook of the current configuration; a load in progress is cancelled. -/
def execGenCodebook (s : State) : Host.Outcome State Fault Refusal :=
  checked (checkCipher s.cfg) s
    (complete .ok
      { s with
        cb := Ram.tabulate 16 (encryptBlock s.cfg)
        cbValid := true
        cbLoading := false
        loadCount := 0#17
        loadOvf := false
        loadOrd := false })

/-- VALIDATE (R143). -/
def execValidate (s : State) : Host.Outcome State Fault Refusal :=
  checked (checkCipher s.cfg) s (complete .ok s)

end Sys2Proof.Machine
end

