-- ==== Sys2Proof/Machine/Operands.lean ====
section
/-! DEFINITION. The operand forms of ATTACK_STEP: target nibbles, target mask, candidate placement and trial key
(spec/42_attack_engine.md R191 to R194). The other operand, PT of ENCRYPT, is used as is (spec/30_encoding.md R104). -/

namespace Sys2Proof.Machine

/-- `TGT[3 - j] = 1`: nibble `j` of K5 is a target (R105). -/
def isTarget (tgt : Nibble) (j : Nat) : Bool := tgt.getLsbD (3 - j)

/-- TN, the target nibbles in ascending order (R191). -/
def targetNibbles (tgt : Nibble) : List Nat := [0, 1, 2, 3].filter (isTarget tgt)

/-- nt, the number of target nibbles (R191). -/
def targetCount (tgt : Nibble) : Nat := popcount tgt

/-- 2^g with g = 4 * nt, the number of candidates (R191). -/
def candidateCount (tgt : Nibble) : Nat := 2 ^ (4 * targetCount tgt)

/-- TM, the mask of the target bits of K5 (R192). -/
def targetMask (tgt : Nibble) : Block := (targetNibbles tgt).foldl (fun m j => m ||| nibMask j) 0#16

/-- The 4-bit digit `k` of candidate `v` among `nt` digits, the most significant first: v[4(nt-1-k)+3 : 4(nt-1-k)] (R193). -/
def candidateDigit (nt : Nat) (v : BitVec 8) (k : Nat) : Nibble := v.extractLsb' (4 * (nt - 1 - k)) 4

/-- spread(v): the digits of `v` placed into the target nibbles (R193). -/
def spread (tgt : Nibble) (v : BitVec 8) : Block :=
  let tn := targetNibbles tgt
  (List.range tn.length).foldl (fun acc k => setnib acc (tn.getD k 0) (candidateDigit tn.length v k)) 0#16

/-- key(v), the trial key: target nibbles take the candidate, the others KNOWN_VAL (R194). -/
def trialKey (knownVal : Block) (tgt : Nibble) (v : BitVec 8) : Block :=
  (knownVal &&& ~~~ targetMask tgt) ||| spread tgt v

end Sys2Proof.Machine
end

