-- ==== Sys2Proof/Machine/Attack.lean ====
section
/-! DEFINITION. The attack engine: the relation check, the agreement counts, the decision and ATTACK_STEP
(spec/42_attack_engine.md R190 to R210). -/

namespace Sys2Proof.Machine

/-- INVALID_RELATION with its sub-cause and INFO (R195, R261). -/
def invalidRelation (sub : BitVec 4) (info : Block) : Report := ⟨.invalidRelation, sub, info⟩

/-- The lowest nibble that ATK_UMASK reads and the step cannot invert: neither a target nor fully known (R195). -/
def unreadableNibble (s : State) (tgt : Nibble) : Option Nat :=
  [0, 1, 2, 3].find? fun j =>
    decide (nib s.atkUmask j ≠ 0#4) && !isTarget tgt j && decide (nib s.knownMask j ≠ 0xF#4)

/-- CHECK_RELATION (R195). -/
def checkRelation (s : State) (tgt : Nibble) : Option Report :=
  if tgt = 0#4 then some (invalidRelation 1#4 0#16)
  else if targetCount tgt > Config.maxTargetNibbles then some (invalidRelation 2#4 (tgt.setWidth 16))
  else (unreadableNibble s tgt).map fun j => invalidRelation 3#4 (BitVec.ofNat 16 j)

/-- The checks of ATTACK_STEP in their order (R199, R266). -/
def checkAttack (s : State) (tgt : Nibble) : Option Report :=
  match checkSbox s.cfg with
  | some r => some r
  | none => if !s.cbValid then some ⟨.malformedCodebook, 4#4, 0#16⟩ else checkRelation s tgt

/-- u(p, v), the partial decryption of the pair of plaintext `p` under the trial key `key` = key(v) (R196). -/
def partialDecrypt (s : State) (key p : Block) : Block := substitute s.cfg.sboxi (s.cb.get p ^^^ key)

/-- rel(p, v) under the trial key `key` = key(v): the relation holds when it is 0 (R197). -/
def relation (s : State) (key p : Block) : Bool :=
  parity (p &&& s.atkPmask) ^^ parity (partialDecrypt s key p &&& s.atkUmask)

/-- The number of pairs, of all 65536, for which the relation holds under a trial key (R198). -/
def agreementsUnder (s : State) (key : Block) : Nat :=
  (List.range Config.samples).countP fun p => !relation s key (BitVec.ofNat 16 p)

/-- count(v), the agreement count of candidate `v` (R194, R198). -/
def agreementCount (s : State) (tgt : Nibble) (v : BitVec 8) : Nat :=
  agreementsUnder s (trialKey s.knownVal tgt v)

/-- The counts of the candidates 0 .. 2^g - 1, in order (R199). -/
def allCounts (s : State) (tgt : Nibble) : List Nat :=
  (List.range (candidateCount tgt)).map fun v => agreementCount s tgt (BitVec.ofNat 8 v)

/-- dev(v) from the agreement count (R200). -/
def deviation (count : Nat) : Int := (count : Int) - Config.half

/-- pass(v) from the agreement count: a strict comparison of the magnitude (R200). -/
def passes (thresh : Block) (count : Nat) : Bool := decide ((deviation count).natAbs > thresh.toNat)

/-- S, the number of surviving candidates (R201). -/
def survivorCount (thresh : Block) (counts : List Nat) : Nat := counts.countP (passes thresh)

/-- The first candidate that survives; the unique one when S = 1 (R202). -/
def firstSurvivor (thresh : Block) (counts : List Nat) : Nat := counts.findIdx (passes thresh)

/-- best, the least candidate whose magnitude of deviation is largest (R203). -/
def bestCandidate (counts : List Nat) : Nat :=
  (List.range counts.length).foldl
    (fun b v => if (deviation (counts.getD b 0)).natAbs < (deviation (counts.getD v 0)).natAbs then v else b) 0

/-- The candidate RAM after a step: every entry written (R205). -/
def candTable (thresh : Block) (counts : List Nat) : Ram CandEntry 8 :=
  Ram.tabulate 8 fun v =>
    match counts[v.toNat]? with
    | some c => ⟨BitVec.ofNat 17 c, true, passes thresh c⟩
    | none => ⟨0#17, false, false⟩

/-- ATK_WINNER: the surviving candidate when S = 1, else 0 (R202). -/
def winner (thresh : Block) (counts : List Nat) : BitVec 8 :=
  if survivorCount thresh counts = 1 then BitVec.ofNat 8 (firstSurvivor thresh counts) else 0#8

/-- The outcome from S (R201). -/
def outcomeOf (survivors : Nat) : AttackOutcome :=
  if survivors = 1 then .unique else if survivors = 0 then .none else .multiple

/-- How the step ends, from S (R199, R201). -/
def attackReport (survivors : Nat) : Report :=
  if survivors = 1 then .ok
  else ⟨.ambiguousKeyRecovery, if survivors = 0 then 1#4 else 2#4, BitVec.ofNat 16 survivors⟩

/-- The fold into the known bits: the winner's bits into the target nibbles (R204). -/
def fold (tgt : Nibble) (w : BitVec 8) (s : State) : State :=
  { s with
    knownVal := (s.knownVal &&& ~~~ targetMask tgt) ||| spread tgt w
    knownMask := s.knownMask ||| targetMask tgt }

/-- The step's results: candidate RAM, best candidate, winner, ATK_STATUS (R199, R202, R203, R205). -/
def attackResults (tgt : Nibble) (folded : Bool) (counts : List Nat) (s : State) : State :=
  { s with
    cand := candTable s.atkThresh counts
    atkBest := BitVec.ofNat 8 (bestCandidate counts)
    atkBestDev := BitVec.ofInt 32 (deviation (counts.getD (bestCandidate counts) 0))
    atkWinner := winner s.atkThresh counts
    atkStatus :=
      ⟨outcomeOf (survivorCount s.atkThresh counts), folded, tgt,
        BitVec.ofNat 9 (survivorCount s.atkThresh counts)⟩ }

/-- The computation of ATTACK_STEP after its checks, from the agreement counts (R199). -/
def decideStep (tgt : Nibble) (foldBit : Bool) (counts : List Nat) (s : State) : State :=
  let survivors := survivorCount s.atkThresh counts
  let folds := foldBit && decide (survivors = 1)
  let scored := attackResults tgt folds counts s
  complete (attackReport survivors) (if folds then fold tgt (winner s.atkThresh counts) scored else scored)

/-- ATTACK_STEP (R199). -/
def execAttackStep (tgt : Nibble) (foldBit : Bool) (s : State) : Host.Outcome State Fault Refusal :=
  checked (checkAttack s tgt) s (decideStep tgt foldBit (allCounts s tgt) s)

end Sys2Proof.Machine
end

