-- ==== Sys2Proof/Machine/Codebook.lean ====
section
/-! DEFINITION. The codebook port: CB_LOAD_BEGIN, record writes, CB_LOAD_END (spec/43_codebook_port.md R231 to R234). -/

namespace Sys2Proof.Machine

/-- CB_LOAD_BEGIN (R231). -/
def execCbLoadBegin (s : State) : Host.Outcome State Fault Refusal :=
  .next (complete .ok
    { s with cbValid := false, cbLoading := true, loadCount := 0#17, loadOvf := false, loadOrd := false })

/-- A record write of `w` to CB_LOAD while BUSY = 0 (R232). -/
def loadRecord (w : Word) (s : State) : State :=
  if !s.cbLoading || s.loadOvf || s.loadOrd then s
  else if s.loadCount = 65536#17 then { s with loadOvf := true }
  else if (w.extractLsb' 16 16).setWidth 17 ≠ s.loadCount then { s with loadOrd := true }
  else
    { s with
      cb := s.cb.set (s.loadCount.setWidth 16) (w.extractLsb' 0 16)
      loadCount := s.loadCount + 1#17 }

/-- MALFORMED_CODEBOOK with its sub-cause and INFO (R233, R261). -/
def malformedCodebook (sub : BitVec 4) (info : Block) : Report := ⟨.malformedCodebook, sub, info⟩

/-- CB_LOAD_END (R233): its check first, then the judgement of the load, which ends it. -/
def execCbLoadEnd (s : State) : Host.Outcome State Fault Refusal :=
  checked (if s.cbLoading then none else some (malformedCodebook 5#4 0#16)) s
    (if s.loadOvf then complete (malformedCodebook 2#4 0#16) { s with cbLoading := false }
     else if s.loadOrd then
       complete (malformedCodebook 3#4 (s.loadCount.setWidth 16)) { s with cbLoading := false }
     else if s.loadCount.toNat < 65536 then
       complete (malformedCodebook 1#4 (s.loadCount.setWidth 16)) { s with cbLoading := false }
     else complete .ok { s with cbLoading := false, cbValid := true })

end Sys2Proof.Machine
end

