-- ==== Sys2Proof/Machine/Lat.lean ====
section
/-! DEFINITION. The LAT builder: the table's entries and BUILD_LAT (spec/41_lat_builder.md R170 to R175). -/

namespace Sys2Proof.Machine

/-- mpar(x, m), the masked parity of a nibble (R170). -/
def maskedParity (x m : Nibble) : Bool := parity (x &&& m)

/-- LATVAL(a, b) (R171). -/
def latValue (sbox : Table) (a b : Nibble) : Int :=
  -8 + ((allNibbles.countP fun x => maskedParity x a == maskedParity (sbox.entry x) b : Nat) : Int)

/-- The LAT of an S-box as the RAM holds it: 5-bit two's complement at index a ++ b (R53, R173). -/
def latTable (sbox : Table) : Ram (BitVec 5) 8 :=
  Ram.tabulate 8 fun ab => BitVec.ofInt 5 (latValue sbox (ab.extractLsb' 4 4) (ab.extractLsb' 0 4))

/-- LAT[a][b] (R12, R53). -/
def latEntry (s : State) (a b : Nibble) : BitVec 5 := s.lat.get (a ++ b)

/-- BUILD_LAT (R173). -/
def execBuildLat (s : State) : Host.Outcome State Fault Refusal :=
  checked (checkSboxFwd s.cfg) s (complete .ok { s with lat := latTable s.cfg.sbox, latValid := true })

end Sys2Proof.Machine
end

