-- ==== Sys2Proof/Machine/Dispatch.lean ====
section
/-! DEFINITION. The meaning of each command at its completion (spec/30_encoding.md R102, R106). -/

namespace Sys2Proof.Machine

def exec (i : Instr) (s : State) : Host.Outcome State Fault Refusal :=
  match i with
  | .encrypt pt => Sys2Proof.Machine.execEncrypt pt s
  | .genCodebook => Sys2Proof.Machine.execGenCodebook s
  | .buildLat => Sys2Proof.Machine.execBuildLat s
  | .cbLoadBegin => Sys2Proof.Machine.execCbLoadBegin s
  | .cbLoadEnd => Sys2Proof.Machine.execCbLoadEnd s
  | .attackStep tgt fold => Sys2Proof.Machine.execAttackStep tgt fold s
  | .validate => Sys2Proof.Machine.execValidate s

end Sys2Proof.Machine
end

