-- ==== Sys2Proof/Machine/Window.lean ====
section
/-! DEFINITION. The register window: offsets, what each register reads, what a write of it does, the write lock, reads while busy,
and bus accesses (spec/10_state.md R20 to R51; spec/20_memory.md R71 to R80; spec/30_encoding.md R107). -/

namespace Sys2Proof.Machine

/-- The offset of a register (R20). -/
def Reg.offset : Reg → BitVec 8
  | .id => 0x00#8 | .ctrl => 0x04#8 | .status => 0x08#8 | .err => 0x0C#8
  | .cmd => 0x10#8 | .encResult => 0x14#8
  | .sboxLo => 0x20#8 | .sboxHi => 0x24#8 | .sboxiLo => 0x28#8 | .sboxiHi => 0x2C#8
  | .pboxLo => 0x30#8 | .pboxHi => 0x34#8
  | .k1 => 0x40#8 | .k2 => 0x44#8 | .k3 => 0x48#8 | .k4 => 0x4C#8 | .k5 => 0x50#8
  | .atkPmask => 0x60#8 | .atkUmask => 0x64#8 | .atkThresh => 0x68#8
  | .knownVal => 0x6C#8 | .knownMask => 0x70#8
  | .atkStatus => 0x80#8 | .atkWinner => 0x84#8 | .atkBest => 0x88#8 | .atkBestDev => 0x8C#8
  | .candIdx => 0x90#8 | .candCount => 0x94#8 | .candDev => 0x98#8
  | .latIdx => 0xA0#8 | .latData => 0xA4#8
  | .cbIdx => 0xB0#8 | .cbData => 0xB4#8 | .cbLoad => 0xB8#8 | .cbLoadStat => 0xBC#8

/-- The registers of the window, in the order of their offsets (R20). -/
def allRegs : List Reg :=
  [.id, .ctrl, .status, .err, .cmd, .encResult] ++
  [.sboxLo, .sboxHi, .sboxiLo, .sboxiHi, .pboxLo, .pboxHi, .k1, .k2, .k3, .k4, .k5] ++
  [.atkPmask, .atkUmask, .atkThresh, .knownVal, .knownMask] ++
  [.atkStatus, .atkWinner, .atkBest, .atkBestDev, .candIdx, .candCount, .candDev] ++
  [.latIdx, .latData, .cbIdx, .cbData, .cbLoad, .cbLoadStat]

/-- The register at an offset; none where the offset is reserved (R20, R50). -/
def regAt (off : BitVec 8) : Option Reg := allRegs.find? fun r => decide (r.offset = off)

/-- The current value of a register; WO registers read 0 (R20 to R49). -/
def Reg.value (r : Reg) (s : State) : Word :=
  match r with
  | .id => Config.idValue
  | .ctrl => flagBit 0 s.irqEn
  | .status => statusWord s
  | .err => errWord s.err
  | .cmd => 0#32
  | .encResult => s.encResult.setWidth 32
  | .sboxLo => s.cfg.sbox.lo
  | .sboxHi => s.cfg.sbox.hi
  | .sboxiLo => s.cfg.sboxi.lo
  | .sboxiHi => s.cfg.sboxi.hi
  | .pboxLo => s.cfg.pbox.lo
  | .pboxHi => s.cfg.pbox.hi
  | .k1 => s.cfg.k1.setWidth 32
  | .k2 => s.cfg.k2.setWidth 32
  | .k3 => s.cfg.k3.setWidth 32
  | .k4 => s.cfg.k4.setWidth 32
  | .k5 => s.cfg.k5.setWidth 32
  | .atkPmask => s.atkPmask.setWidth 32
  | .atkUmask => s.atkUmask.setWidth 32
  | .atkThresh => s.atkThresh.setWidth 32
  | .knownVal => s.knownVal.setWidth 32
  | .knownMask => s.knownMask.setWidth 32
  | .atkStatus => atkStatusWord s.atkStatus
  | .atkWinner => s.atkWinner.setWidth 32
  | .atkBest => s.atkBest.setWidth 32
  | .atkBestDev => s.atkBestDev
  | .candIdx => s.candIdx.setWidth 32
  | .candCount => candCountWord (s.cand.get s.candIdx)
  | .candDev => candDevWord (s.cand.get s.candIdx)
  | .latIdx => s.latIdx.setWidth 32
  | .latData => (latEntry s (s.latIdx.extractLsb' 4 4) (s.latIdx.extractLsb' 0 4)).signExtend 32
  | .cbIdx => s.cbIdx.setWidth 32
  | .cbData => (s.cb.get s.cbIdx).setWidth 32
  | .cbLoad => 0#32
  | .cbLoadStat => cbLoadStatWord s

/-- A write of `v` to a register while it is not locked out: RW registers take their implemented bits, RO registers ignore it, STATUS
clears its W1C bits, CMD issues a command, CB_LOAD delivers a record (R20 to R49, R51). -/
def Reg.write (r : Reg) (v : Word) (s : State) : State :=
  match r with
  | .id => s
  | .ctrl => { s with irqEn := v.getLsbD 0 }
  | .status => writeStatus v s
  | .err => s
  | .cmd => accept v s
  | .encResult => s
  | .sboxLo => { s with cfg := { s.cfg with sbox := { s.cfg.sbox with lo := v } }, latValid := false }
  | .sboxHi => { s with cfg := { s.cfg with sbox := { s.cfg.sbox with hi := v } }, latValid := false }
  | .sboxiLo => { s with cfg := { s.cfg with sboxi := { s.cfg.sboxi with lo := v } } }
  | .sboxiHi => { s with cfg := { s.cfg with sboxi := { s.cfg.sboxi with hi := v } } }
  | .pboxLo => { s with cfg := { s.cfg with pbox := { s.cfg.pbox with lo := v } } }
  | .pboxHi => { s with cfg := { s.cfg with pbox := { s.cfg.pbox with hi := v } } }
  | .k1 => { s with cfg := { s.cfg with k1 := v.setWidth 16 } }
  | .k2 => { s with cfg := { s.cfg with k2 := v.setWidth 16 } }
  | .k3 => { s with cfg := { s.cfg with k3 := v.setWidth 16 } }
  | .k4 => { s with cfg := { s.cfg with k4 := v.setWidth 16 } }
  | .k5 => { s with cfg := { s.cfg with k5 := v.setWidth 16 } }
  | .atkPmask => { s with atkPmask := v.setWidth 16 }
  | .atkUmask => { s with atkUmask := v.setWidth 16 }
  | .atkThresh => { s with atkThresh := v.setWidth 16 }
  | .knownVal => { s with knownVal := v.setWidth 16 }
  | .knownMask => { s with knownMask := v.setWidth 16 }
  | .atkStatus => s
  | .atkWinner => s
  | .atkBest => s
  | .atkBestDev => s
  | .candIdx => { s with candIdx := v.setWidth 8 }
  | .candCount => s
  | .candDev => s
  | .latIdx => { s with latIdx := v.setWidth 8 }
  | .latData => s
  | .cbIdx => { s with cbIdx := v.setWidth 16 }
  | .cbData => s
  | .cbLoad => loadRecord v s
  | .cbLoadStat => s

/-- CTRL and STATUS alone are not locked while BUSY = 1 (R22, R23, R78). -/
def unlocked (off : BitVec 8) : Bool := decide (off = Reg.ctrl.offset) || decide (off = Reg.status.offset)

/-- A legal write of `v` at offset `off` (R78): dropped while BUSY = 1 unless it goes to CTRL or STATUS, and BUSY_VIOL is set; else
as the register's rule says. A write to a reserved offset is otherwise ignored (R50). -/
def writeWindow (off : BitVec 8) (v : Word) (s : State) : State :=
  if s.busy && !unlocked off then { s with busyViol := true }
  else
    match regAt off with
    | some r => r.write v s
    | none => s

/-- The write set of a command as the bits it covers of each register (R107): all 32 of a register, single bits of STATUS. -/
def writeSetMask (i : Instr) (r : Reg) : Word :=
  match i, r with
  | .encrypt _, .encResult => 0xFFFFFFFF#32
  | .genCodebook, .cbData | .genCodebook, .cbLoadStat => 0xFFFFFFFF#32
  | .genCodebook, .status => flagBit 2 true ||| flagBit 4 true
  | .buildLat, .latData => 0xFFFFFFFF#32
  | .buildLat, .status => flagBit 3 true
  | .cbLoadBegin, .cbLoadStat => 0xFFFFFFFF#32
  | .cbLoadBegin, .status => flagBit 2 true ||| flagBit 4 true
  | .cbLoadEnd, .status => flagBit 2 true ||| flagBit 4 true
  | .attackStep _ _, .candCount | .attackStep _ _, .candDev | .attackStep _ _, .atkStatus
  | .attackStep _ _, .atkWinner | .attackStep _ _, .atkBest | .attackStep _ _, .atkBestDev
  | .attackStep _ _, .knownVal | .attackStep _ _, .knownMask => 0xFFFFFFFF#32
  | _, _ => 0#32

/-- The bits of a register whose reads return any value now: those of the write set of the command in flight, none for an illegal word
or an idle engine (R79, R107). -/
def anyBits (s : State) (r : Reg) : Word :=
  match inFlight s with
  | some i => writeSetMask i r
  | none => 0#32

/-- A legal read at offset `off`: the register's value, or any value in the write set of the command in flight; 0 at a reserved offset
(R50, R77, R79; log 4). -/
def readWindow (off : BitVec 8) (s : State) : Word :=
  match regAt off with
  | some r =>
    if anyBits s r = 0#32 then r.value s
    else (r.value s &&& ~~~ anyBits s r) ||| (Config.anyRead s.draws &&& anyBits s r)
  | none => 0#32

/-- A legal access: 32 bits wide, at a multiple of 4 (R74). -/
def legalAccess (off : BitVec 8) (width : BusWidth) : Bool :=
  decide (width = .word) && decide (off.toNat % 4 = 0)

/-- A legal write also has every byte strobe set (R70, R74). -/
def legalWrite (off : BitVec 8) (width : BusWidth) (strobes : BitVec 4) : Bool :=
  legalAccess off width && decide (strobes = 0xF#4)

/-- The host receives a response (R14). -/
def respond (r : BusResponse) (s : State) : State := { s with busLog := r :: s.busLog }

/-- A bus read (R71, R74, R77). -/
def busRead (off : BitVec 8) (width : BusWidth) (s : State) : State :=
  if legalAccess off width then respond (.read (readWindow off s) false) s
  else respond (.read 0#32 true) s

/-- A bus write (R71, R74, R78). -/
def busWrite (off : BitVec 8) (width : BusWidth) (strobes : BitVec 4) (v : Word) (s : State) : State :=
  if legalWrite off width strobes then respond (.write false) (writeWindow off v s)
  else respond (.write true) s

/-- The offset a host address reaches: an address in the window, less SPN_BASE; none where the access does not reach the block
(R71, R72; log 7). -/
def windowOffset (address : Nat) : Option (BitVec 8) :=
  if Config.spnBase ≤ address ∧ address < Config.spnBase + 256 then
    some (BitVec.ofNat 8 (address - Config.spnBase))
  else none

/-- MemRead(address, 4) as an access of the block (R12, R71). -/
def memRead (address : Nat) : Option HostAction := (windowOffset address).map fun off => .read off .word

/-- MemWrite(address, 4, v) as an access of the block (R12, R71). -/
def memWrite (address : Nat) (v : Word) : Option HostAction :=
  (windowOffset address).map fun off => .write off .word 0xF#4 v

end Sys2Proof.Machine
end

