-- ==== Sys2Proof/Machine/Host.lean ====
section
/-! DEFINITION. One turn of the host agent and the reset input (spec/00_scope.md R13; spec/20_memory.md R71, R84;
spec/70_reset_and_hazards.md R300 to R302; log 1). -/

namespace Sys2Proof.Machine

/-- What one input does to the block. -/
def hostAct (a : HostAction) (s : State) : State :=
  match a with
  | .idle => s
  | .read off width => busRead off width s
  | .write off width strobes v => busWrite off width strobes v s
  | .reset => State.resetWith s.draws s.hostQueue s.busLog

/-- The next input is a reset, which overrides a completion of the same cycle (R300). -/
def resetNext (s : State) : Bool :=
  match s.hostQueue with
  | .reset :: _ => true
  | _ => false

/-- An engine step in which no command completes: the engine spends one step of the command in flight, if there is one, and the host's
next input takes effect (R71, R84, R305). Each input has a fresh draw for its free value. -/
def hostTurn (s : State) : State :=
  match s.hostQueue with
  | [] => engineTick s
  | a :: rest =>
    let after := hostAct a { engineTick s with hostQueue := rest }
    { after with draws := s.draws + 1 }

/-- `s` with the command word `w` in flight and its completion due at the next engine step: the state of R101's acceptance when the
command's LATENCY is spent but for the last step. A reset waiting at the head of the inputs comes one cycle later (log 2). -/
def withCommandDue (w : Word) (s : State) : State :=
  { s with
    cmdPending := w
    busy := true
    done := false
    remaining := 1
    hostQueue := if resetNext s then .idle :: s.hostQueue else s.hostQueue }

end Sys2Proof.Machine
end

