-- ==== Sys2Proof/Machine/Step.lean ====
section
/-! DEFINITION. One step of the machine: a reset, or the completion of the command in flight, or one turn of the host, in this order of
precedence (spec/20_memory.md R86; spec/60_exceptions.md R267; spec/70_reset_and_hazards.md R300; log 1). -/

namespace Sys2Proof.Machine

/-- The completion of the command in flight (R102): its word is decoded (R103); a command's meaning runs, and an illegal word ends in
ILLEGAL_COMMAND. -/
def completion (s : State) : Host.Outcome State Fault Refusal :=
  match decode s.cmdPending with
  | .ok i => exec i s
  | .error e => .next (completeIllegal e s)

/-- One step. -/
def step (s : State) : Host.Outcome State Fault Refusal :=
  if completionDue s && !resetNext s then completion s else .next (hostTurn s)

/-- `s` with a command word stored where the next step takes it from: in flight, its completion due. The low `nbits` bits of `w` are
the word's, the bits above are 0. -/
def State.withFetchWord (s : State) (nbits w : Nat) : State :=
  withCommandDue (BitVec.ofNat 32 (w % 2 ^ nbits)) s

end Sys2Proof.Machine
end

