-- ==== Sys2Proof/Safety.lean ====
section
/-! DEFINITION. The terms the claims use: when a table, an S-box pair and a cipher configuration are valid, which outcomes the spec
lists and which are fatal, and the invariant that holds of every state a run reaches. -/

namespace Sys2Proof.Machine

/-- image(T) = ALL: every nibble is an entry (R137). -/
def Table.Bijective (t : Table) : Prop := ∀ y : Nibble, ∃ x : Nibble, t.entry x = y

/-- What CHECK_SBOX requires (R137): both tables are bijections and SBOXI undoes SBOX. -/
def SboxPair (c : CipherConfig) : Prop :=
  c.sbox.Bijective ∧ c.sboxi.Bijective ∧ ∀ x : Nibble, c.sboxi.entry (c.sbox.entry x) = x

/-- What CHECK_CIPHER requires (R140). -/
def CipherValid (c : CipherConfig) : Prop := SboxPair c ∧ c.pbox.Bijective

/-- `y` is min(ALL \ image(T)) (R137). -/
def LeastMissing (t : Table) (y : Nibble) : Prop :=
  (∀ x, t.entry x ≠ y) ∧ ∀ z : Nibble, z.toNat < y.toNat → ∃ x, t.entry x = z

/-- Nibble `j` of U4 is one the step can invert: ATK_UMASK does not read it, or it is a target, or it is fully known (R195). -/
def NibbleReadable (s : State) (tgt : Nibble) (j : Nat) : Prop :=
  nib s.atkUmask j = 0#4 ∨ tgt.getLsbD (3 - j) = true ∨ nib s.knownMask j = 0xF#4

/-- When an ATTACK_STEP reaches its computation (R195, R199). -/
structure AttackReady (s : State) (tgt : Nibble) : Prop where
  sboxes : SboxPair s.cfg
  codebook : s.cbValid = true
  someTarget : tgt ≠ 0#4
  atMostTwo : popcount tgt ≤ 2
  readable : ∀ j < 4, NibbleReadable s tgt j

/-- `v` is a candidate: v < 2^g with g = 4 * popcount TGT (R191). -/
def IsCandidate (tgt : Nibble) (v : BitVec 8) : Prop := v.toNat < 2 ^ (4 * popcount tgt)

/-- The outcomes R261 lists: the SUB values of each code. -/
def listedOutcome (c : ErrCode) (sub : BitVec 4) : Bool :=
  match c with
  | .ok => decide (sub = 0#4)
  | .invalidSbox => decide (sub = 1#4) || decide (sub = 2#4) || decide (sub = 3#4)
  | .invalidPermutation => decide (sub = 1#4)
  | .malformedCodebook => decide (1 ≤ sub.toNat) && decide (sub.toNat ≤ 5)
  | .ambiguousKeyRecovery => decide (sub = 1#4) || decide (sub = 2#4)
  | .invalidRelation => decide (sub = 1#4) || decide (sub = 2#4) || decide (sub = 3#4)
  | .illegalCommand => decide (sub = 1#4) || decide (sub = 2#4)

/-- The outcomes R261 calls fatal. -/
def fatalOutcome (c : ErrCode) (sub : BitVec 4) : Bool :=
  match c with
  | .ok => false
  | .invalidSbox => true
  | .invalidPermutation => true
  | .malformedCodebook => decide (sub = 4#4) || decide (sub = 5#4)
  | .ambiguousKeyRecovery => false
  | .invalidRelation => true
  | .illegalCommand => true

/-- ERR after the command in flight has ended with these fields (R262). -/
def errAfter (s : State) (code : ErrCode) (sub : BitVec 4) (info : Block) : ErrReg :=
  ⟨code, sub, info, s.cmdPending.extractLsb' 0 8⟩

/-- The state after a command that writes nothing but ERR, BUSY and DONE, and leaves no engine step (R102, R263). -/
def endedWith (s : State) (code : ErrCode) (sub : BitVec 4) (info : Block) : State :=
  { s with err := errAfter s code sub info, busy := false, done := true, remaining := 0 }

/-- `n` steps, stopping at the first fault or refusal. -/
def run : Nat → State → Host.Outcome State Fault Refusal
  | 0, s => .next s
  | n + 1, s =>
    match step s with
    | .next t => run n t
    | .fault f => .fault f
    | .refused r => .refused r

/-- The number of candidate RAM entries with PASS set. -/
def passCount (m : Ram CandEntry 8) : Nat :=
  (List.range 256).countP fun v => (m.get (BitVec.ofNat 8 v)).pass

/-- ATK_STATUS, ATK_WINNER and the candidate RAM agree (R37, R38, R201, R202, R204, R205): SURVIVORS counts the PASS bits, OUTCOME follows
from SURVIVORS, and only a unique outcome has a winner or a fold. -/
def AttackConsistent (s : State) : Prop :=
  match s.atkStatus.outcome with
  | .notRun => s.atkStatus = resetAtkStatus ∧ s.atkWinner = 0#8
  | .unique => s.atkStatus.survivors = 1#9 ∧ passCount s.cand = 1 ∧ (s.cand.get s.atkWinner).pass = true
  | .none => s.atkStatus.survivors = 0#9 ∧ passCount s.cand = 0 ∧
      s.atkStatus.folded = false ∧ s.atkWinner = 0#8
  | .multiple => 2 ≤ passCount s.cand ∧ s.atkStatus.survivors.toNat = passCount s.cand ∧
      s.atkStatus.folded = false ∧ s.atkWinner = 0#8

/-- What holds of every state a run reaches. -/
structure Invariant (s : State) : Prop where
  /-- A command is in flight exactly while it has an engine step left (R102, R305). -/
  engine : s.busy = true ↔ 1 ≤ s.remaining
  /-- DONE is 0 while a command is in flight: acceptance clears it and only completion sets it (R101, R102). -/
  doneIdle : s.busy = true → s.done = false
  /-- ERR holds an outcome R261 lists. -/
  listed : listedOutcome s.err.code s.err.sub = true
  /-- LOAD_COUNT is at most 65536 (R56). -/
  loadCount : s.loadCount.toNat ≤ 65536
  /-- A valid codebook and a load in progress exclude each other (R231, R233, R142, R234). -/
  validNotLoading : s.cbValid = true → s.cbLoading = false
  /-- LOAD_OVF is latched only after 65536 records (R232). -/
  overflow : s.loadOvf = true → s.loadCount.toNat = 65536
  /-- LOAD_ORD is latched only before 65536 records, so only the first fault is recorded (R232). -/
  order : s.loadOrd = true → s.loadCount.toNat < 65536
  /-- LAT_VALID = 1 says that the LAT RAM was built from the current SBOX, a bijection (R173, R175). -/
  lat : s.latValid = true → s.cfg.sbox.Bijective ∧ s.lat = latTable s.cfg.sbox
  /-- The attack's results agree with one another. -/
  attack : AttackConsistent s

end Sys2Proof.Machine
end

