-- ==== Sys2Proof/Certificates/Slice0/Obligations.lean ====
section
/-! DEFINITION. The statements for the provers. Each says in its docstring which rule of spec/ it formalises. The auxiliary
definitions at the head are written from the spec's tables, not from the model's functions. -/

namespace Sys2Proof.Spec

open Sys2Proof.Machine

/-- The RW registers of R20 with their implemented bits (R22, R27 to R36, R41, R44, R46). -/
def rwRegs : List (Reg × Word) :=
  [(.ctrl, 0x1#32), (.sboxLo, 0xFFFFFFFF#32), (.sboxHi, 0xFFFFFFFF#32), (.sboxiLo, 0xFFFFFFFF#32),
   (.sboxiHi, 0xFFFFFFFF#32), (.pboxLo, 0xFFFFFFFF#32), (.pboxHi, 0xFFFFFFFF#32)] ++
  [(.k1, 0xFFFF#32), (.k2, 0xFFFF#32), (.k3, 0xFFFF#32), (.k4, 0xFFFF#32), (.k5, 0xFFFF#32),
   (.atkPmask, 0xFFFF#32), (.atkUmask, 0xFFFF#32), (.atkThresh, 0xFFFF#32), (.knownVal, 0xFFFF#32),
   (.knownMask, 0xFFFF#32)] ++
  [(.candIdx, 0xFF#32), (.latIdx, 0xFF#32), (.cbIdx, 0xFFFF#32)]

/-- What a write of `v` leaves for each RW register of R20: the state with the field that the commands read set to the implemented
bits of `v`, and for the S-box LAT_VALID cleared (R22, R27 to R36, R41, R44, R46). -/
def rwWritten (v : Word) (s : State) : List (Reg × State) :=
  [(.ctrl, { s with irqEn := v.getLsbD 0 }),
   (.sboxLo, { s with cfg := { s.cfg with sbox := ⟨v, s.cfg.sbox.hi⟩ }, latValid := false }),
   (.sboxHi, { s with cfg := { s.cfg with sbox := ⟨s.cfg.sbox.lo, v⟩ }, latValid := false }),
   (.sboxiLo, { s with cfg := { s.cfg with sboxi := ⟨v, s.cfg.sboxi.hi⟩ } }),
   (.sboxiHi, { s with cfg := { s.cfg with sboxi := ⟨s.cfg.sboxi.lo, v⟩ } }),
   (.pboxLo, { s with cfg := { s.cfg with pbox := ⟨v, s.cfg.pbox.hi⟩ } }),
   (.pboxHi, { s with cfg := { s.cfg with pbox := ⟨s.cfg.pbox.lo, v⟩ } })] ++
  [(.k1, { s with cfg := { s.cfg with k1 := v.extractLsb' 0 16 } }),
   (.k2, { s with cfg := { s.cfg with k2 := v.extractLsb' 0 16 } }),
   (.k3, { s with cfg := { s.cfg with k3 := v.extractLsb' 0 16 } }),
   (.k4, { s with cfg := { s.cfg with k4 := v.extractLsb' 0 16 } }),
   (.k5, { s with cfg := { s.cfg with k5 := v.extractLsb' 0 16 } })] ++
  [(.atkPmask, { s with atkPmask := v.extractLsb' 0 16 }),
   (.atkUmask, { s with atkUmask := v.extractLsb' 0 16 }),
   (.atkThresh, { s with atkThresh := v.extractLsb' 0 16 }),
   (.knownVal, { s with knownVal := v.extractLsb' 0 16 }),
   (.knownMask, { s with knownMask := v.extractLsb' 0 16 })] ++
  [(.candIdx, { s with candIdx := v.extractLsb' 0 8 }),
   (.latIdx, { s with latIdx := v.extractLsb' 0 8 }),
   (.cbIdx, { s with cbIdx := v.extractLsb' 0 16 })]

/-- The RO registers of R20. -/
def roRegs : List Reg :=
  [.id, .err, .encResult, .atkStatus, .atkWinner, .atkBest, .atkBestDev, .candCount, .candDev,
   .latData, .cbData, .cbLoadStat]

/-- The offsets of R20's table. -/
def tableOffsets : List (BitVec 8) :=
  [0x00#8, 0x04#8, 0x08#8, 0x0C#8, 0x10#8, 0x14#8, 0x20#8, 0x24#8, 0x28#8, 0x2C#8, 0x30#8, 0x34#8] ++
  [0x40#8, 0x44#8, 0x48#8, 0x4C#8, 0x50#8, 0x60#8, 0x64#8, 0x68#8, 0x6C#8, 0x70#8] ++
  [0x80#8, 0x84#8, 0x88#8, 0x8C#8, 0x90#8, 0x94#8, 0x98#8, 0xA0#8, 0xA4#8, 0xB0#8, 0xB4#8, 0xB8#8, 0xBC#8]

/-- The registers whose reading may change with a write of `r` although they are not `r`: LAT_VALID in STATUS for the S-box
(R27), the data ports for the index registers (R310). -/
def alsoChangedBy : Reg → List Reg
  | .sboxLo => [.status]
  | .sboxHi => [.status]
  | .candIdx => [.candCount, .candDev]
  | .latIdx => [.latData]
  | .cbIdx => [.cbData]
  | _ => []

/-- The registers of R107's write sets, whole registers. -/
def writeSetRegs : Instr → List Reg
  | .encrypt _ => [.encResult]
  | .genCodebook => [.cbData, .cbLoadStat]
  | .buildLat => [.latData]
  | .cbLoadBegin => [.cbLoadStat]
  | .cbLoadEnd => []
  | .attackStep _ _ =>
    [.candCount, .candDev, .atkStatus, .atkWinner, .atkBest, .atkBestDev, .knownVal, .knownMask]
  | .validate => []

/-- The STATUS bits of R107's write sets: CB_VALID is bit 2, LAT_VALID bit 3, CB_LOADING bit 4. -/
def writeSetStatusBits : Instr → Word
  | .encrypt _ => 0#32
  | .genCodebook => 0x14#32
  | .buildLat => 0x08#32
  | .cbLoadBegin => 0x14#32
  | .cbLoadEnd => 0x14#32
  | .attackStep _ _ => 0#32
  | .validate => 0#32

/-- No command in flight has `r` in its write set, so a read returns its current value (R79). -/
def ReadsCurrent (s : State) (r : Reg) : Prop :=
  s.busy = true → ∀ i, decode s.cmdPending = .ok i → r ∉ writeSetRegs i

/-- No command in flight has bit `b` of STATUS in its write set (R79). -/
def StatusBitReadsCurrent (s : State) (b : Nat) : Prop :=
  s.busy = true → ∀ i, decode s.cmdPending = .ok i → (writeSetStatusBits i).getLsbD b = false

/-- The bits of STATUS (R23). -/
def statusField (s : State) : Nat → Bool
  | 0 => s.busy
  | 1 => s.done
  | 2 => s.cbValid
  | 3 => s.latValid
  | 4 => s.cbLoading
  | 5 => s.busyViol
  | _ => false

/-- The reset values of R300's table, as each register reads. -/
def resetReadings : List (Reg × Word) :=
  [(.id, 0x53504E01#32), (.ctrl, 0#32), (.status, 0#32), (.err, 0#32), (.encResult, 0#32),
   (.sboxLo, 0x9AB83C04#32), (.sboxHi, 0x1F5672ED#32), (.sboxiLo, 0xBCD03AF1#32),
   (.sboxiHi, 0xE9825674#32), (.pboxLo, 0xD951C840#32), (.pboxHi, 0xFB73EA62#32)] ++
  [(.k1, 0x1024#32), (.k2, 0x1FE5#32), (.k3, 0x37CF#32), (.k4, 0xD431#32), (.k5, 0xCF84#32),
   (.atkPmask, 0#32), (.atkUmask, 0#32), (.atkThresh, 0#32), (.knownVal, 0#32), (.knownMask, 0#32),
   (.atkStatus, 0#32), (.atkWinner, 0#32), (.atkBest, 0#32), (.atkBestDev, 0#32)] ++
  [(.candIdx, 0#32), (.latIdx, 0#32), (.cbIdx, 0#32), (.cbLoadStat, 0#32)]

/-- `o` is the substitution of `v` by `t`, nibble by nibble (R130, R131). -/
def Substituted (t : Table) (v o : Block) : Prop := ∀ j < 4, nib o j = t.entry (nib v j)

/-- `o` is the permutation of `v` (R132): pos(o, PBOX[i]) = pos(v, i). -/
def Permuted (pbox : Table) (v o : Block) : Prop :=
  ∀ i : Nibble, pos o (pbox.entry i).toNat = pos v i.toNat

/-- `ct` is the ciphertext of `pt` by the four rounds of R134. -/
def Encrypts (c : CipherConfig) (pt ct : Block) : Prop :=
  ∃ v1 w2 v2 w3 v3 w4 v4 : Block,
    Substituted c.sbox (pt ^^^ c.k1) v1 ∧ Permuted c.pbox v1 w2 ∧
    Substituted c.sbox (w2 ^^^ c.k2) v2 ∧ Permuted c.pbox v2 w3 ∧
    Substituted c.sbox (w3 ^^^ c.k3) v3 ∧ Permuted c.pbox v3 w4 ∧
    Substituted c.sbox (w4 ^^^ c.k4) v4 ∧ ct = v4 ^^^ c.k5

/-- `n` is the agreement count under the trial key `key`: the number of plaintexts p of 0 .. 65535 with parity(p AND ATK_PMASK) XOR
parity(u AND ATK_UMASK) = 0, where u is SUBINV(CB[p] XOR key), said nibble by nibble (R196, R197, R198). -/
def AgreementCount (s : State) (key : Block) (n : Nat) : Prop :=
  ∃ u : Block → Block, (∀ p, Substituted s.cfg.sboxi (s.cb.get p ^^^ key) (u p)) ∧
    n = (List.range 65536).countP fun p =>
      (parity (BitVec.ofNat 16 p &&& s.atkPmask) ^^ parity (u (BitVec.ofNat 16 p) &&& s.atkUmask)) == false

/-- The magnitude of the deviation of an agreement count (R200). -/
def magnitude (count : Nat) : Nat := ((count : Int) - 32768).natAbs

end Sys2Proof.Spec

open Sys2Proof Sys2Proof.Machine Sys2Proof.Spec

/-! ## Encoding -/

/-- R106, R111, R75: the decoder reads every command's word as that command, from the word and from its four byte lanes. -/
def Obligations.DecodeOfEncodedCommand : Prop :=
  ∀ i : Instr, i.wellFormed = true →
    decode (encode i) = .ok i ∧ decodeBytes (toBytes (encode i)) = .ok i

/-- R106, R111: a word that decodes is the word of the command it decodes to: no bit of a legal word is dropped. -/
def Obligations.DecodedWordIsItsEncoding : Prop :=
  ∀ (w : Word) (i : Instr), decode w = .ok i → encode i = w

/-- R103, R106, R108: the decoder sorts every word by the opcode map's match and mask. -/
def Obligations.DecodeClassifiesEveryWord : Prop :=
  ∀ w : Word,
    (assignedOpcode w = false ↔ decode w = .error .unassignedOpcode) ∧
    ((assignedOpcode w = true ∧ wellFormedWord w = false) ↔ decode w = .error .reservedBit) ∧
    (wellFormedWord w = true ↔ ∃ i, decode w = .ok i)

/-- R106: one word of each row, written out bit by bit from the row's pattern. -/
def Obligations.SampleWordsOfEachRow : Prop :=
  decode 0b00010010001101000000000000000001#32 = .ok (.encrypt 0x1234#16) ∧
  decode 0b00000000000000000000000000000010#32 = .ok .genCodebook ∧
  decode 0b00000000000000000000000000000011#32 = .ok .buildLat ∧
  decode 0b00000000000000000000000000000100#32 = .ok .cbLoadBegin ∧
  decode 0b00000000000000000000000000000101#32 = .ok .cbLoadEnd ∧
  decode 0b00000000000000000001110000000110#32 = .ok (.attackStep 0b1100#4 true) ∧
  decode 0b00000000000000000000001000000110#32 = .ok (.attackStep 0b0010#4 false) ∧
  decode 0b00000000000000000000000000000111#32 = .ok .validate

/-- R111: the mnemonic and the word of every command. -/
def Obligations.MnemonicsAndTheirWords : Prop :=
  (∀ pt : Block, (Instr.encrypt pt).mnemonic = "ENCRYPT" ∧
    encode (.encrypt pt) = (pt.setWidth 32 <<< 16) ||| 0x01#32) ∧
  (Instr.genCodebook.mnemonic = "GEN_CODEBOOK" ∧ encode .genCodebook = 0x00000002#32) ∧
  (Instr.buildLat.mnemonic = "BUILD_LAT" ∧ encode .buildLat = 0x00000003#32) ∧
  (Instr.cbLoadBegin.mnemonic = "CB_LOAD_BEGIN" ∧ encode .cbLoadBegin = 0x00000004#32) ∧
  (Instr.cbLoadEnd.mnemonic = "CB_LOAD_END" ∧ encode .cbLoadEnd = 0x00000005#32) ∧
  (∀ (tgt : Nibble) (fold : Bool), (Instr.attackStep tgt fold).mnemonic = "ATTACK_STEP" ∧
    encode (.attackStep tgt fold) =
      ((if fold then 1#32 else 0#32) <<< 12) ||| (tgt.setWidth 32 <<< 8) ||| 0x06#32) ∧
  (Instr.validate.mnemonic = "VALIDATE" ∧ encode .validate = 0x00000007#32)

/-! ## The step -/

/-- The model's step (log 1), after R102, R103: when the command in flight is due and no reset comes, the step is the completion of its
word, which runs the decoded command; and so it does from the state that log 2 gives for a command's word. -/
def Obligations.StepRunsTheCommandInFlight : Prop :=
  (∀ s : State, s.busy = true → s.remaining ≤ 1 → s.hostQueue.head? ≠ some .reset →
    step s = completion s ∧
    ∀ i : Instr, i.wellFormed = true → decode s.cmdPending = .ok i → step s = exec i s) ∧
  ∀ (s : State) (i : Instr), i.wellFormed = true →
    step (s.withFetchWord 32 (encode i).toNat) = exec i (s.withFetchWord 32 (encode i).toNat)

/-- R103: at its completion a word ends in ILLEGAL_COMMAND by its opcode first, then by its reserved bits, with no effect but ERR, BUSY
and DONE; only a legal word's own rule runs. -/
def Obligations.IllegalWordEndsInIllegalCommand : Prop :=
  ∀ s : State,
    (assignedOpcode s.cmdPending = false →
      completion s =
        .next (endedWith s .illegalCommand 1#4 ((s.cmdPending.extractLsb' 0 8).setWidth 16))) ∧
    (assignedOpcode s.cmdPending = true → wellFormedWord s.cmdPending = false →
      completion s =
        .next (endedWith s .illegalCommand 2#4 ((s.cmdPending.extractLsb' 0 8).setWidth 16))) ∧
    (wellFormedWord s.cmdPending = true →
      ∃ i, decode s.cmdPending = .ok i ∧ completion s = exec i s)

/-- The model's step (log 1), after R71 and R84: where no command is due, the host's next access takes effect, and the engine spends
one of its steps; a cycle without an access changes nothing else. -/
def Obligations.StepPerformsTheNextAccess : Prop :=
  ∀ (s : State) (a : HostAction) (rest : List HostAction),
    (s.busy = true → 1 < s.remaining) → s.hostQueue = a :: rest →
    ∀ before : State,
      before = { s with
        remaining := if s.busy = true then s.remaining - 1 else s.remaining
        hostQueue := rest } →
      (a = .idle → step s = .next { before with draws := s.draws + 1 }) ∧
      (∀ off width, a = .read off width →
        step s = .next { busRead off width before with draws := s.draws + 1 }) ∧
      (∀ off width strobes v, a = .write off width strobes v →
        step s = .next { busWrite off width strobes v before with draws := s.draws + 1 })

/-- R102, R260: nothing stops the machine: every state has a next state. -/
def Obligations.EveryStepAnswersNext : Prop := ∀ s : State, ∃ t, step s = .next t

/-- R101, R305, R78: a write of any word to CMD while BUSY = 0 is accepted, with at least one engine step to come; while BUSY = 1 it is
dropped. That the number of engine steps is drawn at the acceptance and held in `remaining` is the model's DESIGN CHOICE (log 3). -/
def Obligations.CmdWriteIssuesTheWordOnlyWhileIdle : Prop :=
  ∀ (s : State) (w : Word),
    (s.busy = false → ∃ n ≥ 1,
      writeWindow 0x10#8 w s = { s with cmdPending := w, busy := true, done := false, remaining := n }) ∧
    (s.busy = true → writeWindow 0x10#8 w s = { s with busyViol := true })

/-- R102, R305: with no reset coming, a command with n + 1 engine steps left is in flight, ERR unchanged, for n steps, and completes at
the step after them, whatever the host does meanwhile. The count of steps and the order of the agents are the model's (logs 1, 3). -/
def Obligations.EveryAcceptedCommandCompletes : Prop :=
  ∀ (s : State) (n : Nat), s.busy = true → s.remaining = n + 1 → HostAction.reset ∉ s.hostQueue →
    (∀ k ≤ n, ∃ u, run k s = .next u ∧ u.busy = true ∧ u.cmdPending = s.cmdPending ∧ u.err = s.err) ∧
    ∃ t, run (n + 1) s = .next t ∧ t.busy = false ∧ t.done = true ∧
      t.err.lastOp = s.cmdPending.extractLsb' 0 8

/-- R300, R302: a reset gives every register its reset value, whatever was in flight, and the power-on state has the same values.
That the host's inputs to come and its responses stay is the model's choice (log 14). -/
def Obligations.ResetGivesEveryRegisterItsResetValue : Prop :=
  (∀ (s : State) (rest : List HostAction), s.hostQueue = .reset :: rest →
    ∃ t, step s = .next t ∧ t.busy = false ∧ t.loadCount = 0#17 ∧ t.loadOvf = false ∧ t.loadOrd = false ∧
      t.hostQueue = rest ∧ t.busLog = s.busLog ∧
      ∀ p ∈ resetReadings, readWindow p.1.offset t = p.2) ∧
  ∀ p ∈ resetReadings, readWindow p.1.offset State.reset = p.2

/-- R86, R306: before its completion a command changes nothing the host reads: an engine step with no input leaves everything but the
count of steps left. The form of the step is the model's (log 1). -/
def Obligations.EngineTickChangesNothingVisible : Prop :=
  ∀ s : State, (s.busy = true → 1 < s.remaining) → s.hostQueue = [] →
    step s = .next { s with remaining := if s.busy = true then s.remaining - 1 else s.remaining } ∧
    ∀ off t, step s = .next t → readWindow off t = readWindow off s

/-- R78, R85: while a command is in flight the host's accesses change CTRL, DONE and BUSY_VIOL at most, so the engine's inputs are those
of its acceptance. The form of the step is the model's (log 1). -/
def Obligations.InputsAreStableWhileBusy : Prop :=
  ∀ s : State, s.busy = true → 1 < s.remaining → s.hostQueue.head? ≠ some .reset →
    ∃ t, step s = .next t ∧
      t = { s with
        irqEn := t.irqEn
        done := t.done
        busyViol := t.busyViol
        remaining := s.remaining - 1
        draws := t.draws
        hostQueue := s.hostQueue.tail
        busLog := t.busLog }

/-! ## The register window -/

/-- R74: an access that is not 32 bits wide at a multiple of 4, or a write without all strobes, gets pslverr, reads 0 and changes
nothing, BUSY_VIOL included; a legal one takes effect through the window. -/
def Obligations.IllegalAccessChangesNothing : Prop :=
  ∀ (s : State) (off : BitVec 8) (width : BusWidth) (strobes : BitVec 4) (v : Word),
    ((off.toNat % 4 ≠ 0 ∨ width ≠ .word) →
      busRead off width s = { s with busLog := .read 0#32 true :: s.busLog }) ∧
    ((off.toNat % 4 ≠ 0 ∨ width ≠ .word ∨ strobes ≠ 0xF#4) →
      busWrite off width strobes v s = { s with busLog := .write true :: s.busLog }) ∧
    (off.toNat % 4 = 0 →
      busRead off .word s = { s with busLog := .read (readWindow off s) false :: s.busLog } ∧
      busWrite off .word 0xF#4 v s =
        { writeWindow off v s with busLog := .write false :: (writeWindow off v s).busLog })

/-- R78: the write lock, and its two exceptions CTRL and STATUS. -/
def Obligations.WritesWhileBusyAreDropped : Prop :=
  ∀ (s : State) (off : BitVec 8) (v : Word), s.busy = true → off.toNat % 4 = 0 →
    (off ≠ 0x04#8 → off ≠ 0x08#8 →
      busWrite off .word 0xF#4 v s =
        { s with busyViol := true, busLog := .write false :: s.busLog }) ∧
    (off = 0x04#8 →
      busWrite off .word 0xF#4 v s =
        { s with irqEn := v.getLsbD 0, busLog := .write false :: s.busLog }) ∧
    (off = 0x08#8 →
      busWrite off .word 0xF#4 v s =
        { s with
          done := s.done && !v.getLsbD 1
          busyViol := s.busyViol && !v.getLsbD 5
          busLog := .write false :: s.busLog })

/-- R23: a STATUS write clears DONE and BUSY_VIOL where it writes 1, and changes no other bit of STATUS. -/
def Obligations.StatusWriteClearsOnlyItsW1cBits : Prop :=
  ∀ (s : State) (v : Word), s.busy = false →
    readWindow 0x08#8 (writeWindow 0x08#8 v s) = readWindow 0x08#8 s &&& ~~~ (v &&& 0x22#32) ∧
    writeWindow 0x08#8 v s =
      { s with
        done := (writeWindow 0x08#8 v s).done
        busyViol := (writeWindow 0x08#8 v s).busyViol }

/-- R20, R22, R27 to R36, R41, R44, R46, R51, R310: a RW register reads back the written value's implemented bits, and the write sets
the field that the commands read, and nothing else but LAT_VALID for the S-box; entry x of a table is bits 4x+3 to 4x of its LO register
for x below 8, and bits 4(x-8)+3 to 4(x-8) of its HI register above. -/
def Obligations.RwRegisterReadsBackItsImplementedBits : Prop :=
  (∀ (s : State) (v : Word), s.busy = false →
    (∀ p ∈ rwRegs, readWindow p.1.offset (writeWindow p.1.offset v s) = v &&& p.2) ∧
    ∀ p ∈ rwWritten v s, writeWindow p.1.offset v s = p.2) ∧
  ∀ (t : Table) (x : Nibble),
    (x.toNat < 8 → t.entry x = t.lo.extractLsb' (4 * x.toNat) 4) ∧
    (8 ≤ x.toNat → t.entry x = t.hi.extractLsb' (4 * (x.toNat - 8)) 4)

/-- R20, R27, R310: the frame of a register write: every other register reads as before but for LAT_VALID and the data ports, and no
array changes. -/
def Obligations.RegisterWriteLeavesTheOthers : Prop :=
  ∀ (s : State) (v : Word), s.busy = false → ∀ p ∈ rwRegs,
    (∀ r : Reg, r ≠ p.1 → r ∉ alsoChangedBy p.1 →
      readWindow r.offset (writeWindow p.1.offset v s) = readWindow r.offset s) ∧
    (writeWindow p.1.offset v s).cb = s.cb ∧ (writeWindow p.1.offset v s).lat = s.lat ∧
    (writeWindow p.1.offset v s).cand = s.cand ∧ (writeWindow p.1.offset v s).busLog = s.busLog

/-- R27, R53: a write of SBOX_LO or SBOX_HI clears LAT_VALID, even of the same value, no other bit of STATUS, and leaves the stale table
in the LAT RAM. -/
def Obligations.SboxWriteClearsLatValid : Prop :=
  ∀ (s : State) (v : Word) (off : BitVec 8), s.busy = false → off = 0x20#8 ∨ off = 0x24#8 →
    readWindow 0x08#8 (writeWindow off v s) = readWindow 0x08#8 s &&& ~~~ 0x08#32 ∧
    (writeWindow off v s).latValid = false ∧ (writeWindow off v s).lat = s.lat ∧
    readWindow 0xA4#8 (writeWindow off v s) = readWindow 0xA4#8 s

/-- R20: a write of a RO register is ignored while the engine is idle, and sets BUSY_VIOL alone while it is busy. -/
def Obligations.ReadOnlyRegistersIgnoreWrites : Prop :=
  ∀ (s : State) (v : Word), ∀ r ∈ roRegs,
    (s.busy = false → writeWindow r.offset v s = s) ∧
    (s.busy = true → writeWindow r.offset v s = { s with busyViol := true })

/-- R50: a reserved offset reads 0; a write to it is ignored, but sets BUSY_VIOL while BUSY = 1. -/
def Obligations.ReservedOffsetsReadZeroAndIgnoreWrites : Prop :=
  ∀ (s : State) (off : BitVec 8) (v : Word), off.toNat % 4 = 0 → off ∉ tableOffsets →
    busRead off .word s = { s with busLog := .read 0#32 false :: s.busLog } ∧
    (s.busy = false → busWrite off .word 0xF#4 v s = { s with busLog := .write false :: s.busLog }) ∧
    (s.busy = true →
      busWrite off .word 0xF#4 v s =
        { s with busyViol := true, busLog := .write false :: s.busLog })

/-- R21, R25, R48, R77: ID reads its constant, and the write-only registers read 0, in every state. -/
def Obligations.IdIsConstantAndWriteOnlyRegistersReadZero : Prop :=
  ∀ s : State, readWindow 0x00#8 s = 0x53504E01#32 ∧ readWindow 0x10#8 s = 0#32 ∧
    readWindow 0xB8#8 s = 0#32

/-- R77: a read changes nothing but what the host has received; with no command in flight it does not change what any later read
returns. -/
def Obligations.ReadsHaveNoSideEffect : Prop :=
  ∀ (s : State) (off : BitVec 8) (width : BusWidth),
    busRead off width s = { s with busLog := (busRead off width s).busLog } ∧
    (s.busy = false → ∀ off' t, t = { busRead off width s with draws := s.draws + 1 } →
      readWindow off' t = readWindow off' s)

/-- R79, R107: while a command is in flight, a read of its write set returns a value drawn for that read, STATUS bit by bit; every
other read returns the current value; an illegal word has no write set. That a whole register's reserved bits are drawn too is the model's
reading (log 4). -/
def Obligations.BusyReadsOfTheWriteSet : Prop :=
  ∀ s : State, s.busy = true →
    (∀ i, decode s.cmdPending = .ok i →
      (∀ r ∈ writeSetRegs i, readWindow r.offset s = Config.anyRead s.draws) ∧
      (∀ r, r ∉ writeSetRegs i → r ≠ .status → readWindow r.offset s = r.value s) ∧
      readWindow 0x08#8 s =
        (statusWord s &&& ~~~ writeSetStatusBits i) ||| (Config.anyRead s.draws &&& writeSetStatusBits i)) ∧
    (∀ e, decode s.cmdPending = .error e → ∀ r : Reg, readWindow r.offset s = r.value s)

/-- R42, R43, R45, R47, R174, R206, R230, R310: with BUSY = 0 each data port reads the entry its index register was last written to
select. -/
def Obligations.DataPortsReadTheSelectedEntry : Prop :=
  ∀ s : State, s.busy = false →
    (∀ a b : Nibble, (readWindow 0xA4#8 (writeWindow 0xA0#8 ((a ++ b).setWidth 32) s)).toInt =
      (latEntry s a b).toInt) ∧
    (∀ p : Block, readWindow 0xB4#8 (writeWindow 0xB0#8 (p.setWidth 32) s) = (s.cb.get p).setWidth 32) ∧
    (∀ v : BitVec 8, ∀ t, t = writeWindow 0x90#8 (v.setWidth 32) s →
      (readWindow 0x94#8 t).extractLsb' 0 17 = (s.cand.get v).count ∧
      (readWindow 0x94#8 t).extractLsb' 17 13 = 0#13 ∧
      (readWindow 0x94#8 t).getLsbD 30 = (s.cand.get v).inuse ∧
      (readWindow 0x94#8 t).getLsbD 31 = (s.cand.get v).pass ∧
      (readWindow 0x98#8 t).toInt =
        if (s.cand.get v).inuse = true then ((s.cand.get v).count.toNat : Int) - 32768 else 0)

/-- R24: ERR reads LAST_OP, INFO, SUB and CODE in their bits, the codes numbered by R261, in every state. R23, R26, R37 to R40, R49,
R79: so do STATUS, ENC_RESULT, ATK_STATUS, ATK_WINNER, ATK_BEST, ATK_BEST_DEV and CB_LOAD_STAT, reserved bits 0, wherever no command in
flight has the register, or the bit of STATUS, in its write set. -/
def Obligations.ErrReadsItsFields : Prop :=
  ∀ s : State,
    (readWindow 0x0C#8 s).extractLsb' 24 8 = s.err.lastOp ∧
    (readWindow 0x0C#8 s).extractLsb' 8 16 = s.err.info ∧
    (readWindow 0x0C#8 s).extractLsb' 4 4 = s.err.sub ∧
    (readWindow 0x0C#8 s).extractLsb' 0 4 =
      (match s.err.code with
        | .ok => 0#4
        | .invalidSbox => 1#4
        | .invalidPermutation => 2#4
        | .malformedCodebook => 3#4
        | .ambiguousKeyRecovery => 4#4
        | .invalidRelation => 5#4
        | .illegalCommand => 6#4) ∧
    (∀ b, StatusBitReadsCurrent s b → (readWindow 0x08#8 s).getLsbD b = statusField s b) ∧
    (ReadsCurrent s .encResult →
      (readWindow 0x14#8 s).extractLsb' 0 16 = s.encResult ∧
      (readWindow 0x14#8 s).extractLsb' 16 16 = 0#16) ∧
    (ReadsCurrent s .atkStatus →
      (readWindow 0x80#8 s).extractLsb' 0 2 =
        (match s.atkStatus.outcome with
          | .notRun => 0#2
          | .unique => 1#2
          | .none => 2#2
          | .multiple => 3#2) ∧
      (readWindow 0x80#8 s).getLsbD 2 = s.atkStatus.folded ∧
      (readWindow 0x80#8 s).getLsbD 3 = false ∧
      (readWindow 0x80#8 s).extractLsb' 4 4 = s.atkStatus.tgt ∧
      (readWindow 0x80#8 s).extractLsb' 8 8 = 0#8 ∧
      (readWindow 0x80#8 s).extractLsb' 16 9 = s.atkStatus.survivors ∧
      (readWindow 0x80#8 s).extractLsb' 25 7 = 0#7) ∧
    (ReadsCurrent s .atkWinner →
      (readWindow 0x84#8 s).extractLsb' 0 8 = s.atkWinner ∧
      (readWindow 0x84#8 s).extractLsb' 8 24 = 0#24) ∧
    (ReadsCurrent s .atkBest →
      (readWindow 0x88#8 s).extractLsb' 0 8 = s.atkBest ∧
      (readWindow 0x88#8 s).extractLsb' 8 24 = 0#24) ∧
    (ReadsCurrent s .atkBestDev → readWindow 0x8C#8 s = s.atkBestDev) ∧
    (ReadsCurrent s .cbLoadStat →
      (readWindow 0xBC#8 s).extractLsb' 0 17 = s.loadCount ∧
      (readWindow 0xBC#8 s).extractLsb' 17 7 = 0#7 ∧
      (readWindow 0xBC#8 s).getLsbD 24 = s.loadOvf ∧
      (readWindow 0xBC#8 s).getLsbD 25 = s.loadOrd ∧
      (readWindow 0xBC#8 s).extractLsb' 26 6 = 0#6)

/-- R72, R71: SPN_BASE is a multiple of 256; MemRead and MemWrite at SPN_BASE + off reach offset off; an address outside the window does
not reach the block. That such an address is refused is the model's choice
(log 7). -/
def Obligations.HostAddressesReachTheirOffsets : Prop :=
  Config.spnBase % 256 = 0 ∧
  (∀ off : BitVec 8, memRead (Config.spnBase + off.toNat) = some (.read off .word) ∧
    ∀ v, memWrite (Config.spnBase + off.toNat) v = some (.write off .word 0xF#4 v)) ∧
  ∀ address, (address < Config.spnBase ∨ Config.spnBase + 256 ≤ address) →
    memRead address = none ∧ ∀ v, memWrite address v = none

/-! ## Outcomes, interrupt and whole-machine rules -/

/-- R260, R261, R262: every command ends in exactly one listed outcome, with its opcode in LAST_OP, BUSY = 0 and DONE = 1. -/
def Obligations.EveryCommandEndsInAListedOutcome : Prop :=
  ∀ (i : Instr) (s : State), ∃ t, exec i s = .next t ∧ t.busy = false ∧ t.done = true ∧
    t.err.lastOp = s.cmdPending.extractLsb' 0 8 ∧ listedOutcome t.err.code t.err.sub = true

/-- R12, R260, R263: a fatal error leaves every register and array as it was, except ERR, BUSY and DONE. -/
def Obligations.FatalErrorsArePrecise : Prop :=
  ∀ (i : Instr) (s t : State), exec i s = .next t → fatalOutcome t.err.code t.err.sub = true →
    t = endedWith s t.err.code t.err.sub t.err.info

/-- R59, R85, R190 and the commands' rules: no command writes the configuration, the relation, the threshold, an index register, CTRL or
BUSY_VIOL, or the agents' side. -/
def Obligations.CommandsLeaveTheHostsRegisters : Prop :=
  ∀ (i : Instr) (s t : State), exec i s = .next t →
    t.cfg = s.cfg ∧ t.atkPmask = s.atkPmask ∧ t.atkUmask = s.atkUmask ∧ t.atkThresh = s.atkThresh ∧
    t.candIdx = s.candIdx ∧ t.latIdx = s.latIdx ∧ t.cbIdx = s.cbIdx ∧ t.irqEn = s.irqEn ∧
    t.busyViol = s.busyViol ∧ t.cmdPending = s.cmdPending ∧ t.draws = s.draws ∧
    t.hostQueue = s.hostQueue ∧ t.busLog = s.busLog

/-- R269: the interrupt level. -/
def Obligations.IrqFollowsDoneAndItsEnable : Prop :=
  (∀ s : State, irq s = (s.irqEn && s.done)) ∧
  (∀ (i : Instr) (s t : State), exec i s = .next t → irq t = s.irqEn) ∧
  (∀ (s t : State), completion s = .next t → t.done = true ∧ irq t = s.irqEn) ∧
  (∀ (s : State) (v : Word), v.getLsbD 1 = true → irq (writeWindow 0x08#8 v s) = false) ∧
  (∀ (s : State) (w : Word), s.busy = false → irq (writeWindow 0x10#8 w s) = false) ∧
  (∀ (s : State) (v : Word), s.done = true → v.getLsbD 0 = true → irq (writeWindow 0x04#8 v s) = true) ∧
  (∀ (s : State) (v : Word), v.getLsbD 0 = false →
    irq (writeWindow 0x04#8 v s) = false ∧ (writeWindow 0x04#8 v s).done = s.done)

/-- R24: ERR changes only at a completion, or by a reset. The form of the step is the model's (log 1). -/
def Obligations.ErrChangesOnlyAtCompletion : Prop :=
  ∀ s t : State, step s = .next t → t.err ≠ s.err →
    s.hostQueue.head? = some .reset ∨ (s.busy = true ∧ s.remaining ≤ 1)

/-- R52, R53, R54, R175: what changes the arrays, in any step that is not a reset: the completion of a command of their own, or a
record while a load is in progress. The form of the step is the model's (log 1). -/
def Obligations.ArraysChangeOnlyByTheirWriters : Prop :=
  ∀ s t : State, step s = .next t → s.hostQueue.head? ≠ some .reset →
    (t.lat ≠ s.lat →
      s.busy = true ∧ s.remaining ≤ 1 ∧ t.busy = false ∧ decode s.cmdPending = .ok .buildLat) ∧
    (t.cand ≠ s.cand →
      s.busy = true ∧ s.remaining ≤ 1 ∧ t.busy = false ∧
        ∃ tgt fold, decode s.cmdPending = .ok (.attackStep tgt fold)) ∧
    (t.cb ≠ s.cb →
      (s.busy = true ∧ s.remaining ≤ 1 ∧ t.busy = false ∧ decode s.cmdPending = .ok .genCodebook) ∨
      (s.busy = false ∧ s.cbLoading = true ∧
        ∃ w rest, s.hostQueue = .write 0xB8#8 .word 0xF#4 w :: rest))

/-- R23, R234: what changes CB_VALID, in any step that is not a reset. The form of the step is the model's (log 1). -/
def Obligations.CodebookValidityChangesOnlyByItsCommands : Prop :=
  ∀ s t : State, step s = .next t → s.hostQueue.head? ≠ some .reset → t.cbValid ≠ s.cbValid →
    s.busy = true ∧ t.busy = false ∧
    ((t.cbValid = true ∧ t.err.code = .ok ∧
        (decode s.cmdPending = .ok .genCodebook ∨ decode s.cmdPending = .ok .cbLoadEnd)) ∨
      (t.cbValid = false ∧ decode s.cmdPending = .ok .cbLoadBegin))

/-- The invariant of Safety.lean holds right after reset. -/
def Obligations.InvariantHoldsAtReset : Prop := Invariant State.reset

/-- Every step keeps the invariant of Safety.lean: the engine's state and DONE (R101, R102, R305), listed outcomes (R261), the load
state (R232, R233, R234), the LAT of the current S-box (R175), and the agreement of the attack's results (R201 to R205). The form of the step is the model's (log 1). -/
def Obligations.EveryStepKeepsTheInvariant : Prop :=
  ∀ s t : State, Invariant s → step s = .next t → Invariant t

/-! ## Cipher engine -/

/-- R137, R139, R140, R141, R142, R143: the first failing check of the configuration decides how ENCRYPT, GEN_CODEBOOK and VALIDATE end;
when CHECK_SBOX passes, SBOX undoes SBOXI too. -/
def Obligations.CipherCommandsReportTheFirstFailingCheck : Prop :=
  (∀ (s : State) (i : Instr), ((∃ pt, i = .encrypt pt) ∨ i = .genCodebook ∨ i = .validate) →
    (∀ y, LeastMissing s.cfg.sbox y →
      exec i s = .next (endedWith s .invalidSbox 1#4 (y.setWidth 16))) ∧
    (∀ y, s.cfg.sbox.Bijective → LeastMissing s.cfg.sboxi y →
      exec i s = .next (endedWith s .invalidSbox 2#4 (y.setWidth 16))) ∧
    (∀ x : Nibble, s.cfg.sbox.Bijective → s.cfg.sboxi.Bijective →
      s.cfg.sboxi.entry (s.cfg.sbox.entry x) ≠ x →
      (∀ z : Nibble, z.toNat < x.toNat → s.cfg.sboxi.entry (s.cfg.sbox.entry z) = z) →
      exec i s = .next (endedWith s .invalidSbox 3#4 (x.setWidth 16))) ∧
    (∀ y, SboxPair s.cfg → LeastMissing s.cfg.pbox y →
      exec i s = .next (endedWith s .invalidPermutation 1#4 (y.setWidth 16)))) ∧
  ∀ c : CipherConfig, SboxPair c → ∀ y : Nibble, c.sbox.entry (c.sboxi.entry y) = y

/-- R143: VALIDATE of a valid configuration ends in OK and writes nothing but ERR, BUSY and DONE. -/
def Obligations.ValidateOfAValidConfiguration : Prop :=
  ∀ s : State, CipherValid s.cfg → exec .validate s = .next (endedWith s .ok 0#4 0#16)

/-- R134, R135, R141: ENCRYPT of a valid configuration writes the ciphertext of the four rounds, and nothing else but ERR, BUSY and
DONE. -/
def Obligations.EncryptComputesTheFourRounds : Prop :=
  ∀ (s : State) (pt : Block), CipherValid s.cfg →
    ∃ ct, Encrypts s.cfg pt ct ∧
      exec (.encrypt pt) s = .next { endedWith s .ok 0#4 0#16 with encResult := ct }

/-- R134, R142: GEN_CODEBOOK of a valid configuration writes the ciphertext of every plaintext, makes the codebook valid, ends a load,
and nothing else. -/
def Obligations.GenCodebookEncryptsEveryPlaintext : Prop :=
  ∀ s : State, CipherValid s.cfg →
    ∃ t, exec .genCodebook s = .next t ∧ (∀ p : Block, Encrypts s.cfg p (t.cb.get p)) ∧
      t = { endedWith s .ok 0#4 0#16 with
        cb := t.cb
        cbValid := true
        cbLoading := false
        loadCount := 0#17
        loadOvf := false
        loadOrd := false }

/-- R136: a generated codebook holds every 16-bit value exactly once. -/
def Obligations.GeneratedCodebookIsABijection : Prop :=
  ∀ s t : State, CipherValid s.cfg → exec .genCodebook s = .next t →
    (∀ p q : Block, t.cb.get p = t.cb.get q → p = q) ∧ ∀ c : Block, ∃ p, t.cb.get p = c

/-- R132, R133: with a bijective P-box, PERM moves position i to PBOX[i], and PERMINV undoes it. -/
def Obligations.PermutationAndItsInverse : Prop :=
  ∀ (pbox : Table) (v : Block), pbox.Bijective →
    Permuted pbox v (permute pbox v) ∧
    (∀ i : Nibble, pos (permuteInv pbox v) i.toNat = pos v (pbox.entry i).toNat) ∧
    permuteInv pbox (permute pbox v) = v

/-- R136, R196: the inverse S-box undoes the last round: U_4 is SUBINV(E(p) XOR K5), so under the trial key K5 the partial decryption of
a generated codebook is U_4. -/
def Obligations.PartialDecryptionUnderTheTrueKeyIsU4 : Prop :=
  (∀ (c : CipherConfig) (p : Block), SboxPair c →
    lastRoundInput c p = substitute c.sboxi (encryptBlock c p ^^^ c.k5)) ∧
  ∀ (s : State) (p : Block), SboxPair s.cfg → (∀ q, s.cb.get q = encryptBlock s.cfg q) →
    partialDecrypt s s.cfg.k5 p = lastRoundInput s.cfg p

/-! ## LAT builder -/

/-- R170, R171, R173: BUILD_LAT of a bijective S-box stores exactly the table's entries, sets LAT_VALID, and writes nothing else but ERR,
BUSY and DONE. -/
def Obligations.BuildLatStoresTheTable : Prop :=
  ∀ s : State, s.cfg.sbox.Bijective →
    ∃ t, exec .buildLat s = .next t ∧
      (∀ a b : Nibble, (latEntry t a b).toInt = -8 + (((List.range 16).countP fun x =>
        parity (BitVec.ofNat 4 x &&& a) == parity (s.cfg.sbox.entry (BitVec.ofNat 4 x) &&& b) : Nat) : Int)) ∧
      t = { endedWith s .ok 0#4 0#16 with lat := t.lat, latValid := true }

/-- R138, R173: BUILD_LAT checks the forward S-box only. -/
def Obligations.BuildLatReportsAnInvalidSbox : Prop :=
  ∀ (s : State) (y : Nibble), LeastMissing s.cfg.sbox y →
    exec .buildLat s = .next (endedWith s .invalidSbox 1#4 (y.setWidth 16))

/-- R172: the range of every entry; for a bijective S-box the first row and column, and evenness. -/
def Obligations.LatRangeAndMargins : Prop :=
  (∀ (t : Table) (a b : Nibble), -8 ≤ latValue t a b ∧ latValue t a b ≤ 8) ∧
  ∀ t : Table, t.Bijective →
    latValue t 0#4 0#4 = 8 ∧
    (∀ b : Nibble, b ≠ 0#4 → latValue t 0#4 b = 0) ∧
    (∀ a : Nibble, a ≠ 0#4 → latValue t a 0#4 = 0) ∧
    ∀ a b : Nibble, latValue t a b % 2 = 0

/-! ## Attack engine -/

/-- R195, R199, R266: the first failing check of ATTACK_STEP decides how it ends. -/
def Obligations.AttackStepReportsTheFirstFailingCheck : Prop :=
  ∀ (s : State) (tgt : Nibble) (fold : Bool),
    (∀ y, LeastMissing s.cfg.sbox y →
      exec (.attackStep tgt fold) s = .next (endedWith s .invalidSbox 1#4 (y.setWidth 16))) ∧
    (∀ y, s.cfg.sbox.Bijective → LeastMissing s.cfg.sboxi y →
      exec (.attackStep tgt fold) s = .next (endedWith s .invalidSbox 2#4 (y.setWidth 16))) ∧
    (∀ x : Nibble, s.cfg.sbox.Bijective → s.cfg.sboxi.Bijective →
      s.cfg.sboxi.entry (s.cfg.sbox.entry x) ≠ x →
      (∀ z : Nibble, z.toNat < x.toNat → s.cfg.sboxi.entry (s.cfg.sbox.entry z) = z) →
      exec (.attackStep tgt fold) s = .next (endedWith s .invalidSbox 3#4 (x.setWidth 16))) ∧
    (SboxPair s.cfg → s.cbValid = false →
      exec (.attackStep tgt fold) s = .next (endedWith s .malformedCodebook 4#4 0#16)) ∧
    (SboxPair s.cfg → s.cbValid = true → tgt = 0#4 →
      exec (.attackStep tgt fold) s = .next (endedWith s .invalidRelation 1#4 0#16)) ∧
    (SboxPair s.cfg → s.cbValid = true → 2 < popcount tgt →
      exec (.attackStep tgt fold) s = .next (endedWith s .invalidRelation 2#4 (tgt.setWidth 16))) ∧
    (∀ j < 4, SboxPair s.cfg → s.cbValid = true → tgt ≠ 0#4 → popcount tgt ≤ 2 →
      ¬ NibbleReadable s tgt j → (∀ k < j, NibbleReadable s tgt k) →
      exec (.attackStep tgt fold) s = .next (endedWith s .invalidRelation 3#4 (BitVec.ofNat 16 j)))

/-- R191, R194, R196 to R200, R205: an ATTACK_STEP that passes its checks writes every candidate entry, its COUNT the number of
plaintexts for which the relation holds under the candidate's trial key, and changes only the attack's results, the known bits, ERR,
BUSY and DONE. `agreementCount` is the name that the other statements use for the same count. -/
def Obligations.AttackStepWritesEveryCandidate : Prop :=
  ∀ (s : State) (tgt : Nibble) (fold : Bool), AttackReady s tgt →
    ∃ t, exec (.attackStep tgt fold) s = .next t ∧
      (∀ v : BitVec 8, IsCandidate tgt v →
        AgreementCount s (trialKey s.knownVal tgt v) (t.cand.get v).count.toNat ∧
        (t.cand.get v).count.toNat = agreementCount s tgt v ∧ (t.cand.get v).inuse = true ∧
        ((t.cand.get v).pass = true ↔ s.atkThresh.toNat < magnitude (agreementCount s tgt v))) ∧
      (∀ v : BitVec 8, ¬ IsCandidate tgt v → t.cand.get v = ⟨0#17, false, false⟩) ∧
      t = { s with
        cand := t.cand
        atkStatus := t.atkStatus
        atkWinner := t.atkWinner
        atkBest := t.atkBest
        atkBestDev := t.atkBestDev
        knownVal := t.knownVal
        knownMask := t.knownMask
        err := t.err
        busy := false
        done := true
        remaining := 0 }

/-- R37, R38, R199, R201, R202: the decision by the number S of surviving candidates. -/
def Obligations.AttackStepDecidesBySurvivors : Prop :=
  ∀ (s : State) (tgt : Nibble) (fold : Bool), AttackReady s tgt →
    ∃ t, exec (.attackStep tgt fold) s = .next t ∧
      t.atkStatus.tgt = tgt ∧ t.atkStatus.survivors.toNat = passCount t.cand ∧
      (passCount t.cand = 1 →
        (t.cand.get t.atkWinner).pass = true ∧ t.atkStatus.outcome = .unique ∧
        t.err = errAfter s .ok 0#4 0#16) ∧
      (passCount t.cand = 0 →
        t.atkWinner = 0#8 ∧ t.atkStatus.outcome = .none ∧
        t.err = errAfter s .ambiguousKeyRecovery 1#4 0#16) ∧
      (2 ≤ passCount t.cand →
        t.atkWinner = 0#8 ∧ t.atkStatus.outcome = .multiple ∧
        t.err = errAfter s .ambiguousKeyRecovery 2#4 (BitVec.ofNat 16 (passCount t.cand)))

/-- R39, R40, R203: ATK_BEST is the least candidate of largest magnitude of deviation, and ATK_BEST_DEV its deviation; the counts are
those of R196 to R198 under the candidates' trial keys. -/
def Obligations.AttackStepReportsTheBestCandidate : Prop :=
  ∀ (s : State) (tgt : Nibble) (fold : Bool), AttackReady s tgt →
    ∃ t, exec (.attackStep tgt fold) s = .next t ∧
      IsCandidate tgt t.atkBest ∧
      (∀ v : BitVec 8, IsCandidate tgt v →
        AgreementCount s (trialKey s.knownVal tgt v) (agreementCount s tgt v) ∧
        magnitude (agreementCount s tgt v) ≤ magnitude (agreementCount s tgt t.atkBest) ∧
        (v.toNat < t.atkBest.toNat →
          magnitude (agreementCount s tgt v) < magnitude (agreementCount s tgt t.atkBest))) ∧
      t.atkBestDev.toInt = (agreementCount s tgt t.atkBest : Int) - 32768

/-- R35, R36, R204: a fold happens exactly when FOLD = 1 and one candidate survives; it writes the winner's trial key into KNOWN_VAL and
marks the target nibbles known; else the known bits stay. -/
def Obligations.AttackStepFoldsOnlyAUniqueWinner : Prop :=
  ∀ (s : State) (tgt : Nibble) (fold : Bool), AttackReady s tgt →
    ∃ t, exec (.attackStep tgt fold) s = .next t ∧
      (t.atkStatus.folded = true ↔ fold = true ∧ passCount t.cand = 1) ∧
      (t.atkStatus.folded = true →
        t.knownVal = trialKey s.knownVal tgt t.atkWinner ∧
        ∀ j < 4, nib t.knownMask j = if tgt.getLsbD (3 - j) then 0xF#4 else nib s.knownMask j) ∧
      (t.atkStatus.folded = false → t.knownVal = s.knownVal ∧ t.knownMask = s.knownMask)

/-- R105, R191 to R194: the trial key takes KNOWN_VAL in the nibbles that are no target; with one target nibble, that nibble is the
candidate's low digit; with two, the first target nibble is the candidate's high digit and the second its low digit. -/
def Obligations.TrialKeyPlacesTheCandidate : Prop :=
  ∀ (known : Block) (tgt : Nibble) (v : BitVec 8), ∀ j < 4,
    (tgt.getLsbD (3 - j) = false → nib (trialKey known tgt v) j = nib known j) ∧
    (tgt.getLsbD (3 - j) = true → popcount tgt = 1 → nib (trialKey known tgt v) j = v.extractLsb' 0 4) ∧
    (tgt.getLsbD (3 - j) = true → popcount tgt = 2 → ∀ k < 4, j < k → tgt.getLsbD (3 - k) = true →
      nib (trialKey known tgt v) j = v.extractLsb' 4 4 ∧ nib (trialKey known tgt v) k = v.extractLsb' 0 4)

/-- R199 (corner cases): relations that always hold, that hold for half the plaintexts, and thresholds no deviation exceeds. -/
def Obligations.DegenerateRelationsAndThresholds : Prop :=
  (∀ (s : State) (tgt : Nibble) (v : BitVec 8), s.atkUmask = 0#16 →
    (s.atkPmask = 0#16 → agreementCount s tgt v = 65536) ∧
    (s.atkPmask ≠ 0#16 → agreementCount s tgt v = 32768)) ∧
  ∀ (s : State) (tgt : Nibble) (fold : Bool), AttackReady s tgt → 32768 ≤ s.atkThresh.toNat →
    ∃ t, exec (.attackStep tgt fold) s = .next t ∧ t.atkStatus.outcome = .none ∧
      t.err = errAfter s .ambiguousKeyRecovery 1#4 0#16 ∧
      t.knownVal = s.knownVal ∧ t.knownMask = s.knownMask

/-- R195, R196: the key bits of nibbles that are neither targets nor fully known never affect a result of an ATTACK_STEP that passes its
checks. -/
def Obligations.UnknownKeyBitsNeverAffectTheAttack : Prop :=
  ∀ (s : State) (tgt : Nibble) (fold : Bool) (known : Block), AttackReady s tgt →
    (∀ j < 4, nib s.knownMask j = 0xF#4 → nib known j = nib s.knownVal j) →
    ∃ t t', exec (.attackStep tgt fold) s = .next t ∧
      exec (.attackStep tgt fold) { s with knownVal := known } = .next t' ∧
      t' = { t with knownVal := t'.knownVal }

/-- R190: an ATTACK_STEP never reads K1 to K5, PBOX, the LAT RAM or LAT_VALID. -/
def Obligations.AttackNeverReadsKeysPboxOrLat : Prop :=
  ∀ (s t : State) (tgt : Nibble) (fold : Bool) (c : CipherConfig) (lat : Ram (BitVec 5) 8) (valid : Bool),
    c.sbox = s.cfg.sbox → c.sboxi = s.cfg.sboxi → exec (.attackStep tgt fold) s = .next t →
    exec (.attackStep tgt fold) { s with cfg := c, lat := lat, latValid := valid } =
      .next { t with cfg := c, lat := lat, latValid := valid }

/-! ## Codebook port -/

/-- R231: CB_LOAD_BEGIN starts or restarts a load; the codebook RAM is not cleared. -/
def Obligations.CbLoadBeginStartsALoad : Prop :=
  ∀ s : State, exec .cbLoadBegin s = .next { endedWith s .ok 0#4 0#16 with
    cbValid := false
    cbLoading := true
    loadCount := 0#17
    loadOvf := false
    loadOrd := false }

/-- R232: what a record write does while BUSY = 0; while BUSY = 1 it counts as no record. -/
def Obligations.RecordWriteLoadsOneEntry : Prop :=
  ∀ (s : State) (pt ct : Block) (t : State), t = writeWindow 0xB8#8 (pt ++ ct) s →
    (s.busy = true → t = { s with busyViol := true }) ∧
    (s.busy = false → (s.cbLoading = false ∨ s.loadOvf = true ∨ s.loadOrd = true) → t = s) ∧
    (s.busy = false → s.cbLoading = true → s.loadOvf = false → s.loadOrd = false →
      (s.loadCount.toNat = 65536 → t = { s with loadOvf := true }) ∧
      (s.loadCount.toNat ≠ 65536 → pt.toNat ≠ s.loadCount.toNat → t = { s with loadOrd := true }) ∧
      (pt.toNat = s.loadCount.toNat →
        t = { s with cb := t.cb, loadCount := t.loadCount } ∧
        t.loadCount.toNat = s.loadCount.toNat + 1 ∧ t.cb.get pt = ct ∧
        ∀ q : Block, q ≠ pt → t.cb.get q = s.cb.get q))

/-- R233: the judgement of a load by CB_LOAD_END. -/
def Obligations.CbLoadEndJudgesTheLoad : Prop :=
  ∀ s : State,
    (s.cbLoading = false → exec .cbLoadEnd s = .next (endedWith s .malformedCodebook 5#4 0#16)) ∧
    (s.cbLoading = true → s.loadOvf = true →
      exec .cbLoadEnd s = .next { endedWith s .malformedCodebook 2#4 0#16 with cbLoading := false }) ∧
    (s.cbLoading = true → s.loadOvf = false → s.loadOrd = true →
      exec .cbLoadEnd s = .next
        { endedWith s .malformedCodebook 3#4 (s.loadCount.extractLsb' 0 16) with cbLoading := false }) ∧
    (s.cbLoading = true → s.loadOvf = false → s.loadOrd = false → s.loadCount.toNat < 65536 →
      exec .cbLoadEnd s = .next
        { endedWith s .malformedCodebook 1#4 (s.loadCount.extractLsb' 0 16) with cbLoading := false }) ∧
    (s.cbLoading = true → s.loadOvf = false → s.loadOrd = false → 65536 ≤ s.loadCount.toNat →
      exec .cbLoadEnd s = .next { endedWith s .ok 0#4 0#16 with cbLoading := false, cbValid := true })

/-- R231, R232, R233: from a load just begun, n records in order are all accepted; with all 65536 of them CB_LOAD_END makes the codebook
valid and every entry is the record's; with fewer it reports sub 1 with their number. -/
def Obligations.LoadOfInOrderRecords : Prop :=
  ∀ (s : State) (f : Block → Block), s.busy = false → s.cbLoading = true → s.loadCount = 0#17 →
    s.loadOvf = false → s.loadOrd = false →
    ∀ n ≤ 65536, ∀ t, t = (List.range n).foldl
        (fun u p => writeWindow 0xB8#8 (BitVec.ofNat 16 p ++ f (BitVec.ofNat 16 p)) u) s →
      t.loadCount.toNat = n ∧
      (∀ q : Block, t.cb.get q = if q.toNat < n then f q else s.cb.get q) ∧
      t = { s with cb := t.cb, loadCount := t.loadCount } ∧
      (n < 65536 → exec .cbLoadEnd t = .next
        { endedWith t .malformedCodebook 1#4 (BitVec.ofNat 16 n) with cbLoading := false }) ∧
      (n = 65536 → exec .cbLoadEnd t = .next
        { endedWith t .ok 0#4 0#16 with cbLoading := false, cbValid := true })
end

