-- ==== Sys2Proof/Laws/Bits.lean ====
section
/-! SUPPORT. Nibbles, positions, parity and table entries: the small lemmas that proofs cite instead of unfolding them. -/

namespace Sys2Proof.Machine

/-- Bit `k` of nibble `j`. -/
theorem getLsbD_nib (v : Block) (j k : Nat) :
    (nib v j).getLsbD k = (decide (k < 4) && v.getLsbD (12 - 4 * j + k)) := by
  simp [nib, BitVec.getLsbD_extractLsb']

@[simp] theorem nib_xor (v w : Block) (j : Nat) : nib (v ^^^ w) j = nib v j ^^^ nib w j := by
  ext k hk
  simp [nib]

@[simp] theorem nib_and (v w : Block) (j : Nat) : nib (v &&& w) j = nib v j &&& nib w j := by
  ext k hk
  simp [nib]

@[simp] theorem nib_or (v w : Block) (j : Nat) : nib (v ||| w) j = nib v j ||| nib w j := by
  ext k hk
  simp [nib]

/-- Bit `k` of four nibbles in positional order. -/
theorem getLsbD_joinNibbles (a b c d : Nibble) (k : Nat) :
    (joinNibbles a b c d).getLsbD k =
      if k < 4 then d.getLsbD k else if k < 8 then c.getLsbD (k - 4)
      else if k < 12 then b.getLsbD (k - 8) else a.getLsbD (k - 12) := by
  change (BitVec.getLsbD (w := 4 + 4 + 4 + 4) (a ++ b ++ c ++ d) k) = _
  simp only [BitVec.getLsbD_append]
  split_ifs <;> first | rfl | omega

/-- The nibbles of four nibbles in positional order (R9, R130). -/
theorem nib_joinNibbles (a b c d : Nibble) :
    nib (joinNibbles a b c d) 0 = a ∧ nib (joinNibbles a b c d) 1 = b ∧
      nib (joinNibbles a b c d) 2 = c ∧ nib (joinNibbles a b c d) 3 = d := by
  refine ⟨?_, ?_, ?_, ?_⟩ <;> (apply BitVec.eq_of_getLsbD_eq; intro k hk) <;>
    rw [getLsbD_nib, getLsbD_joinNibbles] <;>
    (have : k = 0 ∨ k = 1 ∨ k = 2 ∨ k = 3 := by omega) <;>
    rcases this with rfl | rfl | rfl | rfl <;> simp

/-- A Block is its four nibbles in positional order (R9). -/
theorem joinNibbles_nib (v : Block) : joinNibbles (nib v 0) (nib v 1) (nib v 2) (nib v 3) = v := by
  apply BitVec.eq_of_getLsbD_eq
  intro k hk
  simp only [getLsbD_joinNibbles, getLsbD_nib]
  split_ifs <;> (rw [Bool.and_eq_right_iff_imp.2 (fun _ => decide_eq_true (by omega))]; congr 1; omega)

/-- Two Blocks with the same nibbles are equal. -/
theorem block_ext_nib {v w : Block} (h : ∀ j < 4, nib v j = nib w j) : v = w := by
  rw [← joinNibbles_nib v, ← joinNibbles_nib w, h 0 (by omega), h 1 (by omega), h 2 (by omega), h 3 (by omega)]

/-- Two Blocks with the same bits at every source position are equal (R8). -/
theorem block_ext_pos {v w : Block} (h : ∀ i < 16, pos v i = pos w i) : v = w := by
  apply BitVec.eq_of_getLsbD_eq
  intro k hk
  have := h (15 - k) (by omega)
  simpa [pos, show 15 - (15 - k) = k by omega] using this

/-- The Block with one position set has that position only (R8). -/
theorem pos_posMask {i j : Nat} (hi : i < 16) (hj : j < 16) : pos (posMask i) j = decide (j = i) := by
  have h1 : (1#16).getLsbD = fun n => decide (n = 0) := by
    funext n; cases n <;> simp [BitVec.getLsbD_one]
  simp only [pos, posMask, BitVec.getLsbD_shiftLeft, h1]
  rcases Nat.lt_trichotomy i j with h | h | h
  · have : j ≠ i := by omega
    simp [this]; omega
  · subst h; simp; omega
  · have : j ≠ i := by omega
    simp [this]; omega

@[simp] theorem pos_or (v w : Block) (i : Nat) : pos (v ||| w) i = (pos v i || pos w i) := by
  simp [pos]

@[simp] theorem pos_zero (i : Nat) : pos 0#16 i = false := by simp [pos]

theorem parityBelow_xor {w : Nat} (u v : BitVec w) (n : Nat) :
    parityBelow (u ^^^ v) n = (parityBelow u n ^^ parityBelow v n) := by
  induction n with
  | zero => rfl
  | succ n ih =>
    simp only [parityBelow, ih, BitVec.getLsbD_xor]
    cases u.getLsbD n <;> cases v.getLsbD n <;> cases parityBelow u n <;> cases parityBelow v n <;> rfl

/-- Parity is linear over XOR (R11). -/
theorem parity_xor {w : Nat} (u v : BitVec w) : parity (u ^^^ v) = (parity u ^^ parity v) :=
  parityBelow_xor u v w

@[simp] theorem parity_zero {w : Nat} : parity (0#w) = false := by
  have : ∀ n, parityBelow (0#w) n = false := by
    intro n; induction n with
    | zero => rfl
    | succ n ih => simp [parityBelow, ih]
  exact this w

/-- Every nibble stands in the list of all nibbles (R137). -/
theorem mem_allNibbles (x : Nibble) : x ∈ allNibbles := by
  refine List.mem_map.2 ⟨x.toNat, List.mem_range.2 (by simpa using x.isLt), by simp⟩

end Sys2Proof.Machine
end

