-- ==== Sys2Proof/Laws/State.lean ====
section
/-! SUPPORT. One lemma per field per update, so that no proof unfolds a record update. -/

namespace Sys2Proof.Machine

@[simp] theorem raiseError_eq_complete (r : Report) (s : State) : raiseError r s = complete r s := rfl

@[simp] theorem complete_irqEn (r : Report) (s : State) : (complete r s).irqEn = s.irqEn := rfl
@[simp] theorem complete_busy (r : Report) (s : State) : (complete r s).busy = false := rfl
@[simp] theorem complete_done (r : Report) (s : State) : (complete r s).done = true := rfl
@[simp] theorem complete_cbValid (r : Report) (s : State) : (complete r s).cbValid = s.cbValid := rfl
@[simp] theorem complete_latValid (r : Report) (s : State) : (complete r s).latValid = s.latValid := rfl
@[simp] theorem complete_cbLoading (r : Report) (s : State) : (complete r s).cbLoading = s.cbLoading := rfl
@[simp] theorem complete_busyViol (r : Report) (s : State) : (complete r s).busyViol = s.busyViol := rfl
@[simp] theorem complete_err (r : Report) (s : State) : (complete r s).err = ⟨r.code, r.sub, r.info, s.cmdPending.extractLsb' 0 8⟩ := rfl
@[simp] theorem complete_encResult (r : Report) (s : State) : (complete r s).encResult = s.encResult := rfl
@[simp] theorem complete_cfg (r : Report) (s : State) : (complete r s).cfg = s.cfg := rfl
@[simp] theorem complete_atkPmask (r : Report) (s : State) : (complete r s).atkPmask = s.atkPmask := rfl
@[simp] theorem complete_atkUmask (r : Report) (s : State) : (complete r s).atkUmask = s.atkUmask := rfl
@[simp] theorem complete_atkThresh (r : Report) (s : State) : (complete r s).atkThresh = s.atkThresh := rfl
@[simp] theorem complete_knownVal (r : Report) (s : State) : (complete r s).knownVal = s.knownVal := rfl
@[simp] theorem complete_knownMask (r : Report) (s : State) : (complete r s).knownMask = s.knownMask := rfl
@[simp] theorem complete_atkStatus (r : Report) (s : State) : (complete r s).atkStatus = s.atkStatus := rfl
@[simp] theorem complete_atkWinner (r : Report) (s : State) : (complete r s).atkWinner = s.atkWinner := rfl
@[simp] theorem complete_atkBest (r : Report) (s : State) : (complete r s).atkBest = s.atkBest := rfl
@[simp] theorem complete_atkBestDev (r : Report) (s : State) : (complete r s).atkBestDev = s.atkBestDev := rfl
@[simp] theorem complete_candIdx (r : Report) (s : State) : (complete r s).candIdx = s.candIdx := rfl
@[simp] theorem complete_latIdx (r : Report) (s : State) : (complete r s).latIdx = s.latIdx := rfl
@[simp] theorem complete_cbIdx (r : Report) (s : State) : (complete r s).cbIdx = s.cbIdx := rfl
@[simp] theorem complete_cb (r : Report) (s : State) : (complete r s).cb = s.cb := rfl
@[simp] theorem complete_lat (r : Report) (s : State) : (complete r s).lat = s.lat := rfl
@[simp] theorem complete_cand (r : Report) (s : State) : (complete r s).cand = s.cand := rfl
@[simp] theorem complete_cmdPending (r : Report) (s : State) : (complete r s).cmdPending = s.cmdPending := rfl
@[simp] theorem complete_loadCount (r : Report) (s : State) : (complete r s).loadCount = s.loadCount := rfl
@[simp] theorem complete_loadOvf (r : Report) (s : State) : (complete r s).loadOvf = s.loadOvf := rfl
@[simp] theorem complete_loadOrd (r : Report) (s : State) : (complete r s).loadOrd = s.loadOrd := rfl
@[simp] theorem complete_remaining (r : Report) (s : State) : (complete r s).remaining = 0 := rfl
@[simp] theorem complete_draws (r : Report) (s : State) : (complete r s).draws = s.draws := rfl
@[simp] theorem complete_hostQueue (r : Report) (s : State) : (complete r s).hostQueue = s.hostQueue := rfl
@[simp] theorem complete_busLog (r : Report) (s : State) : (complete r s).busLog = s.busLog := rfl

@[simp] theorem accept_irqEn (w : Word) (s : State) : (accept w s).irqEn = s.irqEn := rfl
@[simp] theorem accept_busy (w : Word) (s : State) : (accept w s).busy = true := rfl
@[simp] theorem accept_done (w : Word) (s : State) : (accept w s).done = false := rfl
@[simp] theorem accept_cbValid (w : Word) (s : State) : (accept w s).cbValid = s.cbValid := rfl
@[simp] theorem accept_latValid (w : Word) (s : State) : (accept w s).latValid = s.latValid := rfl
@[simp] theorem accept_cbLoading (w : Word) (s : State) : (accept w s).cbLoading = s.cbLoading := rfl
@[simp] theorem accept_busyViol (w : Word) (s : State) : (accept w s).busyViol = s.busyViol := rfl
@[simp] theorem accept_err (w : Word) (s : State) : (accept w s).err = s.err := rfl
@[simp] theorem accept_encResult (w : Word) (s : State) : (accept w s).encResult = s.encResult := rfl
@[simp] theorem accept_cfg (w : Word) (s : State) : (accept w s).cfg = s.cfg := rfl
@[simp] theorem accept_atkPmask (w : Word) (s : State) : (accept w s).atkPmask = s.atkPmask := rfl
@[simp] theorem accept_atkUmask (w : Word) (s : State) : (accept w s).atkUmask = s.atkUmask := rfl
@[simp] theorem accept_atkThresh (w : Word) (s : State) : (accept w s).atkThresh = s.atkThresh := rfl
@[simp] theorem accept_knownVal (w : Word) (s : State) : (accept w s).knownVal = s.knownVal := rfl
@[simp] theorem accept_knownMask (w : Word) (s : State) : (accept w s).knownMask = s.knownMask := rfl
@[simp] theorem accept_atkStatus (w : Word) (s : State) : (accept w s).atkStatus = s.atkStatus := rfl
@[simp] theorem accept_atkWinner (w : Word) (s : State) : (accept w s).atkWinner = s.atkWinner := rfl
@[simp] theorem accept_atkBest (w : Word) (s : State) : (accept w s).atkBest = s.atkBest := rfl
@[simp] theorem accept_atkBestDev (w : Word) (s : State) : (accept w s).atkBestDev = s.atkBestDev := rfl
@[simp] theorem accept_candIdx (w : Word) (s : State) : (accept w s).candIdx = s.candIdx := rfl
@[simp] theorem accept_latIdx (w : Word) (s : State) : (accept w s).latIdx = s.latIdx := rfl
@[simp] theorem accept_cbIdx (w : Word) (s : State) : (accept w s).cbIdx = s.cbIdx := rfl
@[simp] theorem accept_cb (w : Word) (s : State) : (accept w s).cb = s.cb := rfl
@[simp] theorem accept_lat (w : Word) (s : State) : (accept w s).lat = s.lat := rfl
@[simp] theorem accept_cand (w : Word) (s : State) : (accept w s).cand = s.cand := rfl
@[simp] theorem accept_cmdPending (w : Word) (s : State) : (accept w s).cmdPending = w := rfl
@[simp] theorem accept_loadCount (w : Word) (s : State) : (accept w s).loadCount = s.loadCount := rfl
@[simp] theorem accept_loadOvf (w : Word) (s : State) : (accept w s).loadOvf = s.loadOvf := rfl
@[simp] theorem accept_loadOrd (w : Word) (s : State) : (accept w s).loadOrd = s.loadOrd := rfl
@[simp] theorem accept_remaining (w : Word) (s : State) : (accept w s).remaining = Config.latency s.draws w := rfl
@[simp] theorem accept_draws (w : Word) (s : State) : (accept w s).draws = s.draws := rfl
@[simp] theorem accept_hostQueue (w : Word) (s : State) : (accept w s).hostQueue = s.hostQueue := rfl
@[simp] theorem accept_busLog (w : Word) (s : State) : (accept w s).busLog = s.busLog := rfl

@[simp] theorem engineTick_irqEn (s : State) : (engineTick s).irqEn = s.irqEn := rfl
@[simp] theorem engineTick_busy (s : State) : (engineTick s).busy = s.busy := rfl
@[simp] theorem engineTick_done (s : State) : (engineTick s).done = s.done := rfl
@[simp] theorem engineTick_cbValid (s : State) : (engineTick s).cbValid = s.cbValid := rfl
@[simp] theorem engineTick_latValid (s : State) : (engineTick s).latValid = s.latValid := rfl
@[simp] theorem engineTick_cbLoading (s : State) : (engineTick s).cbLoading = s.cbLoading := rfl
@[simp] theorem engineTick_busyViol (s : State) : (engineTick s).busyViol = s.busyViol := rfl
@[simp] theorem engineTick_err (s : State) : (engineTick s).err = s.err := rfl
@[simp] theorem engineTick_encResult (s : State) : (engineTick s).encResult = s.encResult := rfl
@[simp] theorem engineTick_cfg (s : State) : (engineTick s).cfg = s.cfg := rfl
@[simp] theorem engineTick_atkPmask (s : State) : (engineTick s).atkPmask = s.atkPmask := rfl
@[simp] theorem engineTick_atkUmask (s : State) : (engineTick s).atkUmask = s.atkUmask := rfl
@[simp] theorem engineTick_atkThresh (s : State) : (engineTick s).atkThresh = s.atkThresh := rfl
@[simp] theorem engineTick_knownVal (s : State) : (engineTick s).knownVal = s.knownVal := rfl
@[simp] theorem engineTick_knownMask (s : State) : (engineTick s).knownMask = s.knownMask := rfl
@[simp] theorem engineTick_atkStatus (s : State) : (engineTick s).atkStatus = s.atkStatus := rfl
@[simp] theorem engineTick_atkWinner (s : State) : (engineTick s).atkWinner = s.atkWinner := rfl
@[simp] theorem engineTick_atkBest (s : State) : (engineTick s).atkBest = s.atkBest := rfl
@[simp] theorem engineTick_atkBestDev (s : State) : (engineTick s).atkBestDev = s.atkBestDev := rfl
@[simp] theorem engineTick_candIdx (s : State) : (engineTick s).candIdx = s.candIdx := rfl
@[simp] theorem engineTick_latIdx (s : State) : (engineTick s).latIdx = s.latIdx := rfl
@[simp] theorem engineTick_cbIdx (s : State) : (engineTick s).cbIdx = s.cbIdx := rfl
@[simp] theorem engineTick_cb (s : State) : (engineTick s).cb = s.cb := rfl
@[simp] theorem engineTick_lat (s : State) : (engineTick s).lat = s.lat := rfl
@[simp] theorem engineTick_cand (s : State) : (engineTick s).cand = s.cand := rfl
@[simp] theorem engineTick_cmdPending (s : State) : (engineTick s).cmdPending = s.cmdPending := rfl
@[simp] theorem engineTick_loadCount (s : State) : (engineTick s).loadCount = s.loadCount := rfl
@[simp] theorem engineTick_loadOvf (s : State) : (engineTick s).loadOvf = s.loadOvf := rfl
@[simp] theorem engineTick_loadOrd (s : State) : (engineTick s).loadOrd = s.loadOrd := rfl
@[simp] theorem engineTick_remaining (s : State) : (engineTick s).remaining = if s.busy then s.remaining - 1 else s.remaining := rfl
@[simp] theorem engineTick_draws (s : State) : (engineTick s).draws = s.draws := rfl
@[simp] theorem engineTick_hostQueue (s : State) : (engineTick s).hostQueue = s.hostQueue := rfl
@[simp] theorem engineTick_busLog (s : State) : (engineTick s).busLog = s.busLog := rfl

@[simp] theorem respond_irqEn (r : BusResponse) (s : State) : (respond r s).irqEn = s.irqEn := rfl
@[simp] theorem respond_busy (r : BusResponse) (s : State) : (respond r s).busy = s.busy := rfl
@[simp] theorem respond_done (r : BusResponse) (s : State) : (respond r s).done = s.done := rfl
@[simp] theorem respond_cbValid (r : BusResponse) (s : State) : (respond r s).cbValid = s.cbValid := rfl
@[simp] theorem respond_latValid (r : BusResponse) (s : State) : (respond r s).latValid = s.latValid := rfl
@[simp] theorem respond_cbLoading (r : BusResponse) (s : State) : (respond r s).cbLoading = s.cbLoading := rfl
@[simp] theorem respond_busyViol (r : BusResponse) (s : State) : (respond r s).busyViol = s.busyViol := rfl
@[simp] theorem respond_err (r : BusResponse) (s : State) : (respond r s).err = s.err := rfl
@[simp] theorem respond_encResult (r : BusResponse) (s : State) : (respond r s).encResult = s.encResult := rfl
@[simp] theorem respond_cfg (r : BusResponse) (s : State) : (respond r s).cfg = s.cfg := rfl
@[simp] theorem respond_atkPmask (r : BusResponse) (s : State) : (respond r s).atkPmask = s.atkPmask := rfl
@[simp] theorem respond_atkUmask (r : BusResponse) (s : State) : (respond r s).atkUmask = s.atkUmask := rfl
@[simp] theorem respond_atkThresh (r : BusResponse) (s : State) : (respond r s).atkThresh = s.atkThresh := rfl
@[simp] theorem respond_knownVal (r : BusResponse) (s : State) : (respond r s).knownVal = s.knownVal := rfl
@[simp] theorem respond_knownMask (r : BusResponse) (s : State) : (respond r s).knownMask = s.knownMask := rfl
@[simp] theorem respond_atkStatus (r : BusResponse) (s : State) : (respond r s).atkStatus = s.atkStatus := rfl
@[simp] theorem respond_atkWinner (r : BusResponse) (s : State) : (respond r s).atkWinner = s.atkWinner := rfl
@[simp] theorem respond_atkBest (r : BusResponse) (s : State) : (respond r s).atkBest = s.atkBest := rfl
@[simp] theorem respond_atkBestDev (r : BusResponse) (s : State) : (respond r s).atkBestDev = s.atkBestDev := rfl
@[simp] theorem respond_candIdx (r : BusResponse) (s : State) : (respond r s).candIdx = s.candIdx := rfl
@[simp] theorem respond_latIdx (r : BusResponse) (s : State) : (respond r s).latIdx = s.latIdx := rfl
@[simp] theorem respond_cbIdx (r : BusResponse) (s : State) : (respond r s).cbIdx = s.cbIdx := rfl
@[simp] theorem respond_cb (r : BusResponse) (s : State) : (respond r s).cb = s.cb := rfl
@[simp] theorem respond_lat (r : BusResponse) (s : State) : (respond r s).lat = s.lat := rfl
@[simp] theorem respond_cand (r : BusResponse) (s : State) : (respond r s).cand = s.cand := rfl
@[simp] theorem respond_cmdPending (r : BusResponse) (s : State) : (respond r s).cmdPending = s.cmdPending := rfl
@[simp] theorem respond_loadCount (r : BusResponse) (s : State) : (respond r s).loadCount = s.loadCount := rfl
@[simp] theorem respond_loadOvf (r : BusResponse) (s : State) : (respond r s).loadOvf = s.loadOvf := rfl
@[simp] theorem respond_loadOrd (r : BusResponse) (s : State) : (respond r s).loadOrd = s.loadOrd := rfl
@[simp] theorem respond_remaining (r : BusResponse) (s : State) : (respond r s).remaining = s.remaining := rfl
@[simp] theorem respond_draws (r : BusResponse) (s : State) : (respond r s).draws = s.draws := rfl
@[simp] theorem respond_hostQueue (r : BusResponse) (s : State) : (respond r s).hostQueue = s.hostQueue := rfl
@[simp] theorem respond_busLog (r : BusResponse) (s : State) : (respond r s).busLog = r :: s.busLog := rfl

@[simp] theorem writeStatus_irqEn (v : Word) (s : State) : (writeStatus v s).irqEn = s.irqEn := rfl
@[simp] theorem writeStatus_busy (v : Word) (s : State) : (writeStatus v s).busy = s.busy := rfl
@[simp] theorem writeStatus_done (v : Word) (s : State) : (writeStatus v s).done = (s.done && !v.getLsbD 1) := rfl
@[simp] theorem writeStatus_cbValid (v : Word) (s : State) : (writeStatus v s).cbValid = s.cbValid := rfl
@[simp] theorem writeStatus_latValid (v : Word) (s : State) : (writeStatus v s).latValid = s.latValid := rfl
@[simp] theorem writeStatus_cbLoading (v : Word) (s : State) : (writeStatus v s).cbLoading = s.cbLoading := rfl
@[simp] theorem writeStatus_busyViol (v : Word) (s : State) : (writeStatus v s).busyViol = (s.busyViol && !v.getLsbD 5) := rfl
@[simp] theorem writeStatus_err (v : Word) (s : State) : (writeStatus v s).err = s.err := rfl
@[simp] theorem writeStatus_encResult (v : Word) (s : State) : (writeStatus v s).encResult = s.encResult := rfl
@[simp] theorem writeStatus_cfg (v : Word) (s : State) : (writeStatus v s).cfg = s.cfg := rfl
@[simp] theorem writeStatus_atkPmask (v : Word) (s : State) : (writeStatus v s).atkPmask = s.atkPmask := rfl
@[simp] theorem writeStatus_atkUmask (v : Word) (s : State) : (writeStatus v s).atkUmask = s.atkUmask := rfl
@[simp] theorem writeStatus_atkThresh (v : Word) (s : State) : (writeStatus v s).atkThresh = s.atkThresh := rfl
@[simp] theorem writeStatus_knownVal (v : Word) (s : State) : (writeStatus v s).knownVal = s.knownVal := rfl
@[simp] theorem writeStatus_knownMask (v : Word) (s : State) : (writeStatus v s).knownMask = s.knownMask := rfl
@[simp] theorem writeStatus_atkStatus (v : Word) (s : State) : (writeStatus v s).atkStatus = s.atkStatus := rfl
@[simp] theorem writeStatus_atkWinner (v : Word) (s : State) : (writeStatus v s).atkWinner = s.atkWinner := rfl
@[simp] theorem writeStatus_atkBest (v : Word) (s : State) : (writeStatus v s).atkBest = s.atkBest := rfl
@[simp] theorem writeStatus_atkBestDev (v : Word) (s : State) : (writeStatus v s).atkBestDev = s.atkBestDev := rfl
@[simp] theorem writeStatus_candIdx (v : Word) (s : State) : (writeStatus v s).candIdx = s.candIdx := rfl
@[simp] theorem writeStatus_latIdx (v : Word) (s : State) : (writeStatus v s).latIdx = s.latIdx := rfl
@[simp] theorem writeStatus_cbIdx (v : Word) (s : State) : (writeStatus v s).cbIdx = s.cbIdx := rfl
@[simp] theorem writeStatus_cb (v : Word) (s : State) : (writeStatus v s).cb = s.cb := rfl
@[simp] theorem writeStatus_lat (v : Word) (s : State) : (writeStatus v s).lat = s.lat := rfl
@[simp] theorem writeStatus_cand (v : Word) (s : State) : (writeStatus v s).cand = s.cand := rfl
@[simp] theorem writeStatus_cmdPending (v : Word) (s : State) : (writeStatus v s).cmdPending = s.cmdPending := rfl
@[simp] theorem writeStatus_loadCount (v : Word) (s : State) : (writeStatus v s).loadCount = s.loadCount := rfl
@[simp] theorem writeStatus_loadOvf (v : Word) (s : State) : (writeStatus v s).loadOvf = s.loadOvf := rfl
@[simp] theorem writeStatus_loadOrd (v : Word) (s : State) : (writeStatus v s).loadOrd = s.loadOrd := rfl
@[simp] theorem writeStatus_remaining (v : Word) (s : State) : (writeStatus v s).remaining = s.remaining := rfl
@[simp] theorem writeStatus_draws (v : Word) (s : State) : (writeStatus v s).draws = s.draws := rfl
@[simp] theorem writeStatus_hostQueue (v : Word) (s : State) : (writeStatus v s).hostQueue = s.hostQueue := rfl
@[simp] theorem writeStatus_busLog (v : Word) (s : State) : (writeStatus v s).busLog = s.busLog := rfl

end Sys2Proof.Machine
end

