-- ==== Sys2Proof/Laws/Ops.lean ====
section
/-! SUPPORT. What the shared operations of the command interface and the step can do, said once. -/

namespace Sys2Proof.Machine

@[simp] theorem checked_some (r : Report) (s d : State) :
    checked (some r) s d = .next (complete r s) := rfl

@[simp] theorem checked_none (s d : State) : checked none s d = .next d := rfl

/-- A checked command always answers a next state: the fatal error's, or the completed one. -/
theorem checked_eq_next_iff {f : Option Report} {s d t : State} :
    checked f s d = .next t ↔ (∃ r, f = some r ∧ t = complete r s) ∨ (f = none ∧ t = d) := by
  cases f <;> simp [eq_comm]

/-- The completion of a command that writes nothing is the state R263 gives. -/
theorem complete_eq_endedWith (c : ErrCode) (sub : BitVec 4) (info : Block) (s : State) :
    complete ⟨c, sub, info⟩ s = endedWith s c sub info := rfl

theorem completionDue_iff {s : State} :
    completionDue s = true ↔ s.busy = true ∧ s.remaining ≤ 1 := by
  simp [completionDue]

theorem completionDue_eq_false_iff {s : State} :
    completionDue s = false ↔ (s.busy = true → 1 < s.remaining) := by
  cases h : s.busy <;> simp [completionDue, h]

theorem resetNext_iff {s : State} : resetNext s = true ↔ s.hostQueue.head? = some .reset := by
  unfold resetNext
  split <;> simp_all
  rename_i h
  cases hq : s.hostQueue with
  | nil => simp
  | cons a q => simp; intro ha; exact h q (by rw [hq, ha])

theorem resetNext_eq_false_iff {s : State} :
    resetNext s = false ↔ s.hostQueue.head? ≠ some .reset := by
  rw [← Bool.not_eq_true, resetNext_iff]

/-- One turn of the host by its next input. -/
theorem hostTurn_cons {s : State} {a : HostAction} {rest : List HostAction} (h : s.hostQueue = a :: rest) :
    hostTurn s = { hostAct a { engineTick s with hostQueue := rest } with draws := s.draws + 1 } := by
  unfold hostTurn
  rw [h]

theorem hostTurn_nil {s : State} (h : s.hostQueue = []) : hostTurn s = engineTick s := by
  unfold hostTurn
  rw [h]

/-- A reset at the head of the inputs is what the step does, whatever else is due (R300). -/
theorem step_of_reset {s : State} {rest : List HostAction} (h : s.hostQueue = .reset :: rest) :
    step s = .next (State.resetWith s.draws rest s.busLog) := by
  have : resetNext s = true := by simp [resetNext_iff, h]
  simp [step, this, hostTurn_cons h, hostAct, State.resetWith]

/-- The step at which the command in flight is due. -/
theorem step_of_due {s : State} (hb : s.busy = true) (hr : s.remaining ≤ 1)
    (hq : s.hostQueue.head? ≠ some .reset) : step s = completion s := by
  simp [step, completionDue_iff.2 ⟨hb, hr⟩, resetNext_eq_false_iff.2 hq]

/-- The step at which no command is due. -/
theorem step_of_not_due {s : State} (h : s.busy = true → 1 < s.remaining) :
    step s = .next (hostTurn s) := by
  simp [step, completionDue_eq_false_iff.2 h]

/-- Everything a step can do: a reset, the completion of a command, the completion of an illegal word, or a turn of the host. -/
theorem step_cases {s t : State} (h : step s = .next t) :
    (∃ rest, s.hostQueue = .reset :: rest ∧ t = State.resetWith s.draws rest s.busLog) ∨
    (s.hostQueue.head? ≠ some .reset ∧ s.busy = true ∧ s.remaining ≤ 1 ∧
      ((∃ i, decode s.cmdPending = .ok i ∧ exec i s = .next t) ∨
        ∃ e, decode s.cmdPending = .error e ∧ t = completeIllegal e s)) ∨
    (s.hostQueue.head? ≠ some .reset ∧ (s.busy = true → 1 < s.remaining) ∧ t = hostTurn s) := by
  by_cases hq : s.hostQueue.head? = some .reset
  · obtain ⟨rest, hrest⟩ : ∃ rest, s.hostQueue = .reset :: rest := by
      cases hs : s.hostQueue with
      | nil => simp [hs] at hq
      | cons a q => simp [hs] at hq; exact ⟨q, by rw [hq]⟩
    rw [step_of_reset hrest] at h
    exact .inl ⟨rest, hrest, (Host.Outcome.next.inj h).symm⟩
  by_cases hd : s.busy = true ∧ s.remaining ≤ 1
  · rw [step_of_due hd.1 hd.2 hq] at h
    refine .inr (.inl ⟨hq, hd.1, hd.2, ?_⟩)
    unfold completion at h
    split at h
    · exact .inl ⟨_, by assumption, h⟩
    · exact .inr ⟨_, by assumption, (Host.Outcome.next.inj h).symm⟩
  · have hd' : s.busy = true → 1 < s.remaining := fun hb => by
      by_contra hc; exact hd ⟨hb, by omega⟩
    rw [step_of_not_due hd'] at h
    exact .inr (.inr ⟨hq, hd', (Host.Outcome.next.inj h).symm⟩)

/-- A turn of the host that is not a reset: the inputs it can take and what each does. -/
theorem hostTurn_cases {s : State} (hq : s.hostQueue.head? ≠ some .reset) :
    (s.hostQueue = [] ∧ hostTurn s = engineTick s) ∨
    ∃ a rest, s.hostQueue = a :: rest ∧
      ∀ before, before = { engineTick s with hostQueue := rest } →
        (a = .idle ∧ hostTurn s = { before with draws := s.draws + 1 }) ∨
        (∃ off width, a = .read off width ∧
          hostTurn s = { busRead off width before with draws := s.draws + 1 }) ∨
        (∃ off width strobes v, a = .write off width strobes v ∧
          hostTurn s = { busWrite off width strobes v before with draws := s.draws + 1 }) := by
  cases hs : s.hostQueue with
  | nil => exact .inl ⟨rfl, hostTurn_nil hs⟩
  | cons a rest =>
    refine .inr ⟨a, rest, rfl, ?_⟩
    rintro before rfl
    rw [hostTurn_cons hs]
    cases a with
    | idle => exact .inl ⟨rfl, rfl⟩
    | read off width => exact .inr (.inl ⟨off, width, rfl, rfl⟩)
    | write off width strobes v => exact .inr (.inr ⟨off, width, strobes, v, rfl, rfl⟩)
    | reset => exact absurd (by simp [hs]) hq

end Sys2Proof.Machine
end

