-- ==== Sys2Proof/Laws/Cipher.lean ====
section
/-! SUPPORT. The configuration checks as statements about the tables, and the layers nibble by nibble and position by position. -/

namespace Sys2Proof.Machine

/-- The first nibble a test selects is the least one. -/
theorem find_allNibbles_eq_some_iff {p : Nibble → Bool} {y : Nibble} :
    allNibbles.find? p = some y ↔ p y = true ∧ ∀ z : Nibble, z.toNat < y.toNat → p z = false := by
  rw [List.find?_eq_some_iff_getElem]
  have hget : ∀ (i : Nat) (h : i < allNibbles.length), allNibbles[i] = BitVec.ofNat 4 i := by
    intro i h; simp [allNibbles]
  have hlen : allNibbles.length = 16 := by simp [allNibbles]
  constructor
  · rintro ⟨hp, i, hi, hy, hlt⟩
    rw [hget i hi] at hy
    subst hy
    refine ⟨hp, fun z hz => ?_⟩
    have hi16 : i < 16 := by omega
    have hzi : z.toNat < i := by simpa [Nat.mod_eq_of_lt hi16] using hz
    have := hlt z.toNat hzi
    rw [hget] at this
    simpa using this
  · rintro ⟨hp, hlt⟩
    refine ⟨hp, y.toNat, by rw [hlen]; exact y.isLt, by rw [hget]; simp, fun j hj => ?_⟩
    rw [hget]
    have hy := y.isLt
    simp [hlt (BitVec.ofNat 4 j) (by simp [Nat.mod_eq_of_lt (show j < 16 by omega)]; exact hj)]

theorem find_allNibbles_eq_none_iff {p : Nibble → Bool} :
    allNibbles.find? p = none ↔ ∀ z : Nibble, p z = false := by
  rw [List.find?_eq_none]
  exact ⟨fun h z => by simpa using h z (mem_allNibbles z), fun h z _ => by simp [h z]⟩

theorem any_allNibbles_iff {p : Nibble → Bool} : allNibbles.any p = true ↔ ∃ x, p x = true := by
  rw [List.any_eq_true]
  exact ⟨fun ⟨x, _, h⟩ => ⟨x, h⟩, fun ⟨x, h⟩ => ⟨x, mem_allNibbles x, h⟩⟩

/-- min(ALL \ image(T)) is what the image test reports (R137). -/
theorem missingEntry_eq_some_iff {t : Table} {y : Nibble} :
    missingEntry t = some y ↔ LeastMissing t y := by
  unfold missingEntry LeastMissing
  rw [find_allNibbles_eq_some_iff]
  simp [← Bool.not_eq_true, mem_allNibbles]

/-- The image test passes exactly when the table is a bijection (R137). -/
theorem missingEntry_eq_none_iff {t : Table} : missingEntry t = none ↔ t.Bijective := by
  unfold missingEntry Table.Bijective
  rw [find_allNibbles_eq_none_iff]
  simp [mem_allNibbles]

theorem inverseMismatch_eq_some_iff {c : CipherConfig} {x : Nibble} :
    inverseMismatch c = some x ↔ c.sboxi.entry (c.sbox.entry x) ≠ x ∧
      ∀ z : Nibble, z.toNat < x.toNat → c.sboxi.entry (c.sbox.entry z) = z := by
  unfold inverseMismatch
  rw [find_allNibbles_eq_some_iff]
  simp

theorem inverseMismatch_eq_none_iff {c : CipherConfig} :
    inverseMismatch c = none ↔ ∀ x : Nibble, c.sboxi.entry (c.sbox.entry x) = x := by
  unfold inverseMismatch
  rw [find_allNibbles_eq_none_iff]
  simp

/-- CHECK_SBOX passes exactly for a pair of mutually inverse bijections (R137). -/
theorem checkSbox_eq_none_iff {c : CipherConfig} : checkSbox c = none ↔ SboxPair c := by
  unfold checkSbox SboxPair
  rw [← missingEntry_eq_none_iff, ← missingEntry_eq_none_iff, ← inverseMismatch_eq_none_iff]
  cases missingEntry c.sbox <;> cases missingEntry c.sboxi <;> simp

theorem checkPbox_eq_none_iff {c : CipherConfig} : checkPbox c = none ↔ c.pbox.Bijective := by
  rw [← missingEntry_eq_none_iff]
  simp [checkPbox]

theorem checkSboxFwd_eq_none_iff {c : CipherConfig} : checkSboxFwd c = none ↔ c.sbox.Bijective := by
  rw [← missingEntry_eq_none_iff]
  simp [checkSboxFwd]

/-- CHECK_CIPHER passes exactly for a valid configuration (R140). -/
theorem checkCipher_eq_none_iff {c : CipherConfig} : checkCipher c = none ↔ CipherValid c := by
  unfold checkCipher CipherValid
  rw [← checkSbox_eq_none_iff, ← checkPbox_eq_none_iff]
  cases checkSbox c <;> simp

/-- The reports CHECK_SBOX can make (R137, R261). -/
theorem checkSbox_cases {c : CipherConfig} {r : Report} (h : checkSbox c = some r) :
    ∃ sub x, r = invalidSbox sub x ∧ (sub = 1#4 ∨ sub = 2#4 ∨ sub = 3#4) := by
  unfold checkSbox at h
  split at h
  · exact ⟨_, _, (Option.some.inj h).symm, .inl rfl⟩
  · split at h
    · exact ⟨_, _, (Option.some.inj h).symm, .inr (.inl rfl)⟩
    · obtain ⟨x, -, hx⟩ := Option.map_eq_some_iff.1 h
      exact ⟨_, x, hx.symm, .inr (.inr rfl)⟩

/-- The reports CHECK_PBOX can make (R139, R261). -/
theorem checkPbox_cases {c : CipherConfig} {r : Report} (h : checkPbox c = some r) :
    ∃ y : Nibble, r = ⟨.invalidPermutation, 1#4, y.setWidth 16⟩ := by
  obtain ⟨y, -, hy⟩ := Option.map_eq_some_iff.1 h
  exact ⟨y, hy.symm⟩

/-- The reports CHECK_CIPHER can make (R140, R261). -/
theorem checkCipher_cases {c : CipherConfig} {r : Report} (h : checkCipher c = some r) :
    (∃ sub x, r = invalidSbox sub x ∧ (sub = 1#4 ∨ sub = 2#4 ∨ sub = 3#4)) ∨
      ∃ y : Nibble, r = ⟨.invalidPermutation, 1#4, y.setWidth 16⟩ := by
  unfold checkCipher at h
  split at h
  · exact .inl (checkSbox_cases (by rename_i hc; rw [hc]; exact h))
  · exact .inr (checkPbox_cases h)

/-- The layer substitutes each nibble on its own, order kept (R130, R131). -/
@[simp] theorem nib_substitute (t : Table) (v : Block) {j : Nat} (hj : j < 4) :
    nib (substitute t v) j = t.entry (nib v j) := by
  have h := nib_joinNibbles (t.entry (nib v 0)) (t.entry (nib v 1)) (t.entry (nib v 2)) (t.entry (nib v 3))
  have : j = 0 ∨ j = 1 ∨ j = 2 ∨ j = 3 := by omega
  rcases this with rfl | rfl | rfl | rfl
  exacts [h.1, h.2.1, h.2.2.1, h.2.2.2]

/-- A table that undoes another nibble by nibble undoes its layer. -/
theorem substitute_substitute {t u : Table} (h : ∀ x, u.entry (t.entry x) = x) (v : Block) :
    substitute u (substitute t v) = v :=
  block_ext_nib fun j hj => by rw [nib_substitute _ _ hj, nib_substitute _ _ hj, h]

/-- A bijective table is one to one: 16 entries, all values taken. -/
theorem Table.Bijective.injective {t : Table} (h : t.Bijective) {x y : Nibble}
    (hxy : t.entry x = t.entry y) : x = y := by
  have hs : Function.Surjective t.entry := h
  exact (Finite.injective_iff_surjective.2 hs) hxy

/-- Gathering positions by a fold over any list of sources: a target position is set when some source in the list sends a set bit
there. -/
theorem pos_gather (l : List Nat) (src dst : Nat → Nat) (v o : Block) (hdst : ∀ i, dst i < 16)
    {j : Nat} (hj : j < 16) :
    pos (l.foldl (fun o i => if pos v (src i) then o ||| posMask (dst i) else o) o) j =
      (pos o j || l.any fun i => pos v (src i) && decide (j = dst i)) := by
  induction l generalizing o with
  | nil => simp
  | cons a l ih =>
    simp only [List.foldl_cons, ih, List.any_cons]
    by_cases hb : pos v (src a) = true
    · simp [hb, pos_posMask (hdst a) hj, Bool.or_assoc]
    · simp [hb]

/-- PERM moves input position i to output position PBOX[i] (R132). -/
theorem pos_permute {pbox : Table} (h : pbox.Bijective) (v : Block) (i : Nibble) :
    pos (permute pbox v) (pbox.entry i).toNat = pos v i.toNat := by
  unfold permute
  have hg := pos_gather (List.range 16) (fun i => i) (fun i => (pbox.entry (BitVec.ofNat 4 i)).toNat) v 0#16
    (fun i => (pbox.entry (BitVec.ofNat 4 i)).isLt) (pbox.entry i).isLt
  rw [hg, pos_zero, Bool.false_or]
  cases hv : pos v i.toNat with
  | true =>
    rw [List.any_eq_true]
    exact ⟨i.toNat, List.mem_range.2 i.isLt, by simp [hv]⟩
  | false =>
    rw [List.any_eq_false]
    intro k hk
    simp only [Bool.and_eq_true, decide_eq_true_eq, not_and]
    intro hvk heq
    have : i = BitVec.ofNat 4 k := h.injective (BitVec.eq_of_toNat_eq heq)
    rw [this] at hv
    have hk' : k < 16 := List.mem_range.1 hk
    rw [BitVec.toNat_ofNat, Nat.mod_eq_of_lt hk'] at hv
    rw [hv] at hvk
    exact absurd hvk (by simp)

/-- PERMINV reads output position PBOX[i] into position i (R133). -/
theorem pos_permuteInv (pbox : Table) (o : Block) (i : Nibble) :
    pos (permuteInv pbox o) i.toNat = pos o (pbox.entry i).toNat := by
  unfold permuteInv
  have key : ∀ (l : List Nat) (a : Block), (∀ k ∈ l, k < 16) →
      pos (l.foldl (fun v k => if pos o (pbox.entry (BitVec.ofNat 4 k)).toNat then v ||| posMask k else v) a)
          i.toNat =
        (pos a i.toNat || l.any fun k => pos o (pbox.entry (BitVec.ofNat 4 k)).toNat && decide (i.toNat = k)) := by
    intro l
    induction l with
    | nil => simp
    | cons k l ih =>
      intro a hl
      have hk : k < 16 := hl k (by simp)
      simp only [List.foldl_cons, List.any_cons]
      rw [ih _ fun m hm => hl m (by simp [hm])]
      by_cases hb : pos o (pbox.entry (BitVec.ofNat 4 k)).toNat = true
      · simp [hb, pos_posMask hk i.isLt, Bool.or_assoc]
      · simp [hb]
  rw [key _ _ fun k hk => List.mem_range.1 hk, pos_zero, Bool.false_or]
  cases ho : pos o (pbox.entry i).toNat with
  | true =>
    rw [List.any_eq_true]
    exact ⟨i.toNat, List.mem_range.2 i.isLt, by simp [ho]⟩
  | false =>
    rw [List.any_eq_false]
    intro k hk
    simp only [Bool.and_eq_true, decide_eq_true_eq, not_and]
    rintro hok rfl
    simp [ho] at hok

end Sys2Proof.Machine
end

