-- ==== Sys2Proof/Laws/Commands.lean ====
section
/-! SUPPORT. Everything a command can do, said once: a fatal error from the state at its entry, or a completion that writes only
what the commands' rules list. -/

namespace Sys2Proof.Machine

/-- The reports CHECK_RELATION can make (R195, R261). -/
theorem checkRelation_cases {s : State} {tgt : Nibble} {r : Report} (h : checkRelation s tgt = some r) :
    ∃ sub info, r = invalidRelation sub info ∧ (sub = 1#4 ∨ sub = 2#4 ∨ sub = 3#4) := by
  unfold checkRelation at h
  split_ifs at h
  · exact ⟨_, _, (Option.some.inj h).symm, .inl rfl⟩
  · exact ⟨_, _, (Option.some.inj h).symm, .inr (.inl rfl)⟩
  · obtain ⟨j, -, hj⟩ := Option.map_eq_some_iff.1 h
    exact ⟨_, _, hj.symm, .inr (.inr rfl)⟩

/-- The checks of the cipher commands report listed fatal errors (R261). -/
theorem checkCipher_listed {c : CipherConfig} {r : Report} (h : checkCipher c = some r) :
    listedOutcome r.code r.sub = true ∧ fatalOutcome r.code r.sub = true := by
  rcases checkCipher_cases h with ⟨sub, x, rfl, rfl | rfl | rfl⟩ | ⟨y, rfl⟩ <;> exact ⟨rfl, rfl⟩

/-- The checks of ATTACK_STEP report listed fatal errors (R261). -/
theorem checkAttack_listed {s : State} {tgt : Nibble} {r : Report} (h : checkAttack s tgt = some r) :
    listedOutcome r.code r.sub = true ∧ fatalOutcome r.code r.sub = true := by
  unfold checkAttack at h
  split at h
  · obtain ⟨sub, x, hx, hsub⟩ := checkSbox_cases (by assumption)
    rw [← Option.some.inj h, hx]
    rcases hsub with rfl | rfl | rfl <;> exact ⟨rfl, rfl⟩
  · split_ifs at h
    · rw [← Option.some.inj h]; exact ⟨rfl, rfl⟩
    · obtain ⟨sub, info, rfl, rfl | rfl | rfl⟩ := checkRelation_cases h <;> exact ⟨rfl, rfl⟩

/-- The report of a scored step is listed and not fatal (R201, R261). -/
theorem attackReport_listed (n : Nat) :
    listedOutcome (attackReport n).code (attackReport n).sub = true ∧
      fatalOutcome (attackReport n).code (attackReport n).sub = false := by
  unfold attackReport
  split_ifs <;> exact ⟨rfl, rfl⟩

/-- A scored step is the completion of its results, with the known bits folded or not (R199, R204). -/
theorem decideStep_eq (tgt : Nibble) (foldBit : Bool) (counts : List Nat) (s : State) :
    ∃ kv km, decideStep tgt foldBit counts s =
      complete (attackReport (survivorCount s.atkThresh counts))
        { attackResults tgt (foldBit && decide (survivorCount s.atkThresh counts = 1)) counts s with
          knownVal := kv
          knownMask := km } := by
  unfold decideStep
  dsimp only
  split_ifs
  · exact ⟨_, _, rfl⟩
  · exact ⟨_, _, rfl⟩

/-- `u` is `s` but for the state some command may write (R107): the results, the arrays, the load state and the known bits. -/
def OnlyResultsDiffer (s u : State) : Prop :=
  u = { s with
    encResult := u.encResult
    cb := u.cb
    cbValid := u.cbValid
    cbLoading := u.cbLoading
    loadCount := u.loadCount
    loadOvf := u.loadOvf
    loadOrd := u.loadOrd
    lat := u.lat
    latValid := u.latValid
    cand := u.cand
    atkStatus := u.atkStatus
    atkWinner := u.atkWinner
    atkBest := u.atkBest
    atkBestDev := u.atkBestDev
    knownVal := u.knownVal
    knownMask := u.knownMask }

/-- Everything a command can do (R260, R262, R263). -/
theorem exec_cases (i : Instr) (s : State) :
    (∃ r, fatalOutcome r.code r.sub = true ∧ listedOutcome r.code r.sub = true ∧
      exec i s = .next (complete r s)) ∨
    ∃ r u, fatalOutcome r.code r.sub = false ∧ listedOutcome r.code r.sub = true ∧
      exec i s = .next (complete r u) ∧ OnlyResultsDiffer s u := by
  cases i with
  | encrypt pt =>
    simp only [exec, execEncrypt]
    cases h : checkCipher s.cfg with
    | some r => exact .inl ⟨r, (checkCipher_listed h).2, (checkCipher_listed h).1, rfl⟩
    | none => exact .inr ⟨.ok, _, rfl, rfl, rfl, rfl⟩
  | genCodebook =>
    simp only [exec, execGenCodebook]
    cases h : checkCipher s.cfg with
    | some r => exact .inl ⟨r, (checkCipher_listed h).2, (checkCipher_listed h).1, rfl⟩
    | none => exact .inr ⟨.ok, _, rfl, rfl, rfl, rfl⟩
  | buildLat =>
    simp only [exec, execBuildLat]
    cases h : checkSboxFwd s.cfg with
    | some r =>
      obtain ⟨y, -, rfl⟩ := Option.map_eq_some_iff.1 h
      exact .inl ⟨_, rfl, rfl, rfl⟩
    | none => exact .inr ⟨.ok, _, rfl, rfl, rfl, rfl⟩
  | cbLoadBegin => exact .inr ⟨.ok, _, rfl, rfl, rfl, rfl⟩
  | cbLoadEnd =>
    simp only [exec, execCbLoadEnd]
    by_cases hl : s.cbLoading = true
    · simp only [hl, if_true, checked_none]
      right
      split_ifs <;> exact ⟨_, _, rfl, rfl, rfl, rfl⟩
    · simp only [hl]
      exact .inl ⟨_, rfl, rfl, rfl⟩
  | attackStep tgt foldBit =>
    simp only [exec, execAttackStep]
    cases h : checkAttack s tgt with
    | some r => exact .inl ⟨r, (checkAttack_listed h).2, (checkAttack_listed h).1, rfl⟩
    | none =>
      obtain ⟨kv, km, hk⟩ := decideStep_eq tgt foldBit (allCounts s tgt) s
      rw [hk]
      exact .inr ⟨_, _, (attackReport_listed _).2, (attackReport_listed _).1, rfl, rfl⟩
  | validate =>
    simp only [exec, execValidate]
    cases h : checkCipher s.cfg with
    | some r => exact .inl ⟨r, (checkCipher_listed h).2, (checkCipher_listed h).1, rfl⟩
    | none => exact .inr ⟨.ok, _, rfl, rfl, rfl, rfl⟩

/-- No command faults or refuses. -/
theorem exec_answers_next (i : Instr) (s : State) : ∃ t, exec i s = .next t := by
  rcases exec_cases i s with ⟨r, _, _, h⟩ | ⟨r, u, _, _, h, _⟩
  exacts [⟨_, h⟩, ⟨_, h⟩]

end Sys2Proof.Machine
end

