-- ==== Sys2Proof/Laws/Ram.lean ====
section
/-! SUPPORT. What reading an array gives after a write and after writing every entry; arrays with the same entries are equal. -/

namespace Sys2Proof.Machine

/-- An index of d + 1 bits is its most significant bit and the d bits below it. -/
theorem index_ext {d : Nat} {i j : BitVec (d + 1)} (hm : i.msb = j.msb)
    (hl : i.setWidth d = j.setWidth d) : i = j := by
  rw [← BitVec.cons_msb_setWidth i, ← BitVec.cons_msb_setWidth j, hm, hl]

@[simp] theorem Ram.get_tabulate {α : Type} :
    ∀ {d : Nat} (f : BitVec d → α) (i : BitVec d), (Ram.tabulate d f).get i = f i
  | 0, f, i => by rw [BitVec.eq_nil i]; rfl
  | d + 1, f, i => by
    have h := BitVec.cons_msb_setWidth i
    simp only [Ram.tabulate, Ram.get]
    cases hm : i.msb <;> rw [hm] at h <;> simp [Ram.get_tabulate, h]

theorem Ram.get_set {α : Type} :
    ∀ {d : Nat} (m : Ram α d) (i j : BitVec d) (a : α),
      (m.set i a).get j = if j = i then a else m.get j
  | 0, .leaf b, i, j, a => by simp [Ram.set, Ram.get, BitVec.eq_nil i, BitVec.eq_nil j]
  | d + 1, .node lo hi, i, j, a => by
    have key : j = i ↔ j.msb = i.msb ∧ j.setWidth d = i.setWidth d :=
      ⟨fun h => by simp [h], fun h => index_ext h.1 h.2⟩
    simp only [Ram.set, key]
    cases hi : i.msb <;> cases hj : j.msb <;> simp [Ram.get, hj, Ram.get_set]

/-- Read after write, at the entry written. -/
@[simp] theorem Ram.get_set_self {α : Type} {d : Nat} (m : Ram α d) (i : BitVec d) (a : α) :
    (m.set i a).get i = a := by simp [Ram.get_set]

/-- A write leaves every other entry alone. -/
theorem Ram.get_set_other {α : Type} {d : Nat} (m : Ram α d) {i j : BitVec d} (a : α) (h : j ≠ i) :
    (m.set i a).get j = m.get j := by simp [Ram.get_set, h]

/-- Equal contents are equal data: the array is in canonical form by its type. -/
theorem Ram.ext_get {α : Type} :
    ∀ {d : Nat} {m n : Ram α d}, (∀ i, m.get i = n.get i) → m = n
  | 0, .leaf a, .leaf b, h => by simpa [Ram.get] using h 0#0
  | d + 1, .node lo hi, .node lo' hi', h => by
    have hlo : lo = lo' := Ram.ext_get fun i => by
      simpa [Ram.get, BitVec.msb_cons, BitVec.setWidth_cons] using h (i.cons false)
    have hhi : hi = hi' := Ram.ext_get fun i => by
      simpa [Ram.get, BitVec.msb_cons, BitVec.setWidth_cons] using h (i.cons true)
    rw [hlo, hhi]

/-- Writing every entry is determined by the entries. -/
theorem Ram.eq_tabulate_iff {α : Type} {d : Nat} (m : Ram α d) (f : BitVec d → α) :
    m = Ram.tabulate d f ↔ ∀ i, m.get i = f i :=
  ⟨fun h i => by rw [h, Ram.get_tabulate], fun h => Ram.ext_get fun i => by rw [h, Ram.get_tabulate]⟩

end Sys2Proof.Machine
end

