-- ==== Sys2Proof/Laws/Attack.lean ====
section
/-! SUPPORT. The attack engine piece by piece: when its checks pass, the operand masks nibble by nibble, the candidate table, the
survivors and the best candidate, and what a scored step leaves in each register. -/

namespace Sys2Proof.Machine

theorem nib_not (v : Block) {j : Nat} (hj : j < 4) : nib (~~~ v) j = ~~~ nib v j := by
  apply BitVec.eq_of_getLsbD_eq
  intro k hk
  have : 12 - 4 * j + k < 16 := by omega
  simp only [getLsbD_nib, BitVec.getLsbD_not, hk, this, decide_true, Bool.true_and]

@[simp] theorem nib_zero (k : Nat) : nib 0#16 k = 0#4 := by simp [nib]

/-- A replaced nibble, and the others (R9). -/
theorem nib_setnib (v : Block) (n : Nibble) {j k : Nat} (hj : j < 4) (hk : k < 4) :
    nib (setnib v j n) k = if k = j then n else nib v k := by
  have mask : ∀ j < 4, ∀ k < 4, nib (nibMask j) k = if k = j then 0xF#4 else 0#4 := by decide
  have place : ∀ n : Nibble, ∀ j < 4, ∀ k < 4,
      nib ((n.setWidth 16 : Block) <<< (12 - 4 * j)) k = if k = j then n else 0#4 := by decide
  simp only [setnib, nib_or, nib_and, nib_not _ hk, mask j hj k hk, place n j hj k hk]
  split
  · simp
  · have : ∀ a : Nibble, a &&& ~~~ 0#4 ||| 0#4 = a := by decide
    exact this _

/-- TM nibble by nibble (R192). -/
theorem nib_targetMask (tgt : Nibble) {k : Nat} (hk : k < 4) :
    nib (targetMask tgt) k = if tgt.getLsbD (3 - k) then 0xF#4 else 0#4 := by
  have : ∀ tgt : Nibble, ∀ k < 4,
      nib (targetMask tgt) k = if tgt.getLsbD (3 - k) then 0xF#4 else 0#4 := by decide
  exact this tgt k hk

/-- CHECK_RELATION's third test, nibble by nibble (R195). -/
theorem unreadableNibble_eq_none_iff {s : State} {tgt : Nibble} :
    unreadableNibble s tgt = none ↔ ∀ j < 4, NibbleReadable s tgt j := by
  have key : ∀ j, (decide (nib s.atkUmask j ≠ 0#4) && !isTarget tgt j &&
      decide (nib s.knownMask j ≠ 0xF#4)) = true ↔ ¬ NibbleReadable s tgt j := by
    intro j
    unfold NibbleReadable isTarget
    simp
    tauto
  have mem : ∀ j, j ∈ [0, 1, 2, 3] ↔ j < 4 := by intro j; simp; omega
  unfold unreadableNibble
  rw [List.find?_eq_none]
  refine ⟨fun h j hj => ?_, fun h j hj hn => (key j).1 hn (h j ((mem j).1 hj))⟩
  by_contra hn
  exact h j ((mem j).2 hj) ((key j).2 hn)

/-- ATTACK_STEP computes exactly when its checks pass (R195, R199). -/
theorem checkAttack_eq_none_iff {s : State} {tgt : Nibble} :
    checkAttack s tgt = none ↔ AttackReady s tgt := by
  unfold checkAttack
  constructor
  · intro h
    split at h
    · cases h
    rename_i hs
    split_ifs at h with hc
    unfold checkRelation at h
    split_ifs at h with h1 h2
    exact ⟨checkSbox_eq_none_iff.1 hs, by simpa using hc, h1,
      by simpa [targetCount, Config.maxTargetNibbles] using h2,
      unreadableNibble_eq_none_iff.1 (by simpa using h)⟩
  · intro ⟨a, b, c, d, e⟩
    rw [checkSbox_eq_none_iff.2 a]
    simp [b, checkRelation, c, targetCount, Config.maxTargetNibbles, show ¬ 2 < popcount tgt by omega,
      unreadableNibble_eq_none_iff.2 e]

/-- A step whose checks pass is the scored step (R199). -/
theorem exec_attackStep_of_ready {s : State} {tgt : Nibble} (foldBit : Bool) (h : AttackReady s tgt) :
    exec (.attackStep tgt foldBit) s = .next (decideStep tgt foldBit (allCounts s tgt) s) := by
  simp [exec, execAttackStep, checkAttack_eq_none_iff.2 h]

/-- At most two target nibbles make at most 256 candidates (R191). -/
theorem allCounts_length_le {s : State} {tgt : Nibble} (h : popcount tgt ≤ 2) :
    (allCounts s tgt).length ≤ 256 := by
  simp only [allCounts, List.length_map, List.length_range, candidateCount, targetCount]
  calc 2 ^ (4 * popcount tgt) ≤ 2 ^ 8 := Nat.pow_le_pow_right (by omega) (by omega)
    _ = 256 := by norm_num

theorem allCounts_getElem? {s : State} {tgt : Nibble} {v : Nat} (h : v < candidateCount tgt) :
    (allCounts s tgt)[v]? = some (agreementCount s tgt (BitVec.ofNat 8 v)) := by
  simp [allCounts, h]

/-- A count is an integer 0 .. 65536 (R198). -/
theorem agreementCount_le (s : State) (tgt : Nibble) (v : BitVec 8) : agreementCount s tgt v ≤ 65536 := by
  unfold agreementCount agreementsUnder
  refine le_trans List.countP_le_length ?_
  simp [Config.samples]

/-- An entry of the candidate RAM after a scored step (R205). -/
theorem candTable_get (thresh : Block) (counts : List Nat) (v : BitVec 8) :
    (candTable thresh counts).get v =
      match counts[v.toNat]? with
      | some c => ⟨BitVec.ofNat 17 c, true, passes thresh c⟩
      | none => ⟨0#17, false, false⟩ := by
  exact Ram.get_tabulate _ v

/-- Counting a list's elements by their places. -/
theorem countP_range_getElem? {α : Type} (p : α → Bool) (l : List α) :
    ∀ n, l.length ≤ n → (List.range n).countP (fun i => (l[i]?).any p) = l.countP p := by
  induction l with
  | nil => intro n _; simp
  | cons a l ih =>
    intro n hn
    cases n with
    | zero => simp at hn
    | succ n =>
      have := ih n (by simpa using hn)
      rw [List.range_succ_eq_map, List.countP_cons, List.countP_map, List.countP_cons]
      simp only [Function.comp_def, List.getElem?_cons_succ, List.getElem?_cons_zero, Option.any_some]
      rw [this]

/-- The PASS bits of the candidate RAM count the survivors (R201, R205). -/
theorem passCount_candTable (thresh : Block) (counts : List Nat) (h : counts.length ≤ 256) :
    passCount (candTable thresh counts) = survivorCount thresh counts := by
  unfold passCount survivorCount
  rw [← countP_range_getElem? (passes thresh) counts 256 h]
  apply List.countP_congr
  intro i hi
  have hi' : i < 256 := List.mem_range.1 hi
  have : (BitVec.ofNat 8 i).toNat = i := by simp; omega
  rw [candTable_get, this]
  cases counts[i]? <;> simp

/-- The unique survivor passes (R202). -/
theorem winner_pass (thresh : Block) (counts : List Nat) (h : counts.length ≤ 256)
    (h1 : survivorCount thresh counts = 1) :
    ((candTable thresh counts).get (winner thresh counts)).pass = true := by
  have hex : ∃ x ∈ counts, passes thresh x = true := by
    rw [← List.countP_pos_iff]; unfold survivorCount at h1; omega
  have hlt : firstSurvivor thresh counts < counts.length := List.findIdx_lt_length.2 hex
  have h2 : (BitVec.ofNat 8 (firstSurvivor thresh counts)).toNat = firstSurvivor thresh counts := by
    simp; omega
  rw [winner, if_pos h1, candTable_get, h2, List.getElem?_eq_getElem hlt]
  show passes thresh (counts[firstSurvivor thresh counts]) = true
  exact List.findIdx_getElem

/-- The registers a scored step writes, the known bits apart (R199 to R203, R205). -/
theorem decideStep_results (tgt : Nibble) (foldBit : Bool) (counts : List Nat) (s : State) :
    (decideStep tgt foldBit counts s).cand = candTable s.atkThresh counts ∧
    (decideStep tgt foldBit counts s).atkBest = BitVec.ofNat 8 (bestCandidate counts) ∧
    (decideStep tgt foldBit counts s).atkBestDev =
      BitVec.ofInt 32 (deviation (counts.getD (bestCandidate counts) 0)) ∧
    (decideStep tgt foldBit counts s).atkWinner = winner s.atkThresh counts ∧
    (decideStep tgt foldBit counts s).atkStatus =
      ⟨outcomeOf (survivorCount s.atkThresh counts),
        foldBit && decide (survivorCount s.atkThresh counts = 1), tgt,
        BitVec.ofNat 9 (survivorCount s.atkThresh counts)⟩ ∧
    (decideStep tgt foldBit counts s).err =
      errAfter s (attackReport (survivorCount s.atkThresh counts)).code
        (attackReport (survivorCount s.atkThresh counts)).sub
        (attackReport (survivorCount s.atkThresh counts)).info := by
  obtain ⟨kv, km, hk⟩ := decideStep_eq tgt foldBit counts s
  rw [hk]
  simp [attackResults, errAfter]

/-- The known bits after a scored step (R204). -/
theorem decideStep_known (tgt : Nibble) (foldBit : Bool) (counts : List Nat) (s : State) :
    (decideStep tgt foldBit counts s).knownVal =
      (if foldBit = true ∧ survivorCount s.atkThresh counts = 1
        then trialKey s.knownVal tgt (winner s.atkThresh counts) else s.knownVal) ∧
    (decideStep tgt foldBit counts s).knownMask =
      (if foldBit = true ∧ survivorCount s.atkThresh counts = 1
        then s.knownMask ||| targetMask tgt else s.knownMask) := by
  unfold decideStep
  by_cases h : foldBit = true ∧ survivorCount s.atkThresh counts = 1
  · simp [h.1, h.2, fold, attackResults, trialKey]
  · have : (foldBit && decide (survivorCount s.atkThresh counts = 1)) = false := by
      rw [← Bool.not_eq_true]; simpa using h
    simp only [this, Bool.false_eq_true, if_false, h]
    exact ⟨rfl, rfl⟩

/-- A candidate survives when the magnitude of its deviation is above the threshold (R200). -/
theorem passes_iff (thresh : Block) (c : Nat) :
    passes thresh c = true ↔ thresh.toNat < (deviation c).natAbs := by
  simp [passes]

end Sys2Proof.Machine
end

