-- ==== Sys2Proof/Laws/Codebook.lean ====
section
/-! SUPPORT. The fields of a record word and everything a record write can do. -/

namespace Sys2Proof.Machine

/-- The plaintext of a record (R48). -/
theorem record_pt (pt ct : Block) : (pt ++ ct : Word).extractLsb' 16 16 = pt := by
  apply BitVec.eq_of_getLsbD_eq
  intro k hk
  have := BitVec.getLsbD_append (x := pt) (y := ct) (i := 16 + k)
  simp only [BitVec.getLsbD_extractLsb', hk, decide_true, Bool.true_and, this]
  simp

/-- The ciphertext of a record (R48). -/
theorem record_ct (pt ct : Block) : (pt ++ ct : Word).extractLsb' 0 16 = ct := by
  apply BitVec.eq_of_getLsbD_eq
  intro k hk
  have := BitVec.getLsbD_append (x := pt) (y := ct) (i := k)
  simp only [BitVec.getLsbD_extractLsb', hk, decide_true, Bool.true_and, Nat.zero_add, this]
  simp [hk]

/-- LOAD_COUNT[15:0] (R233). -/
theorem loadCount_low (v : BitVec 17) : v.setWidth 16 = v.extractLsb' 0 16 := by
  apply BitVec.eq_of_getLsbD_eq
  intro k hk
  simp [hk]

/-- The 17-bit count has its highest value exactly at 65536 (R56, R232). -/
theorem loadCount_full_iff {n : BitVec 17} : n = 65536#17 ↔ n.toNat = 65536 := by
  rw [← BitVec.toNat_inj]
  simp

/-- The record is the expected one (R232). -/
theorem record_expected_iff {pt : Block} {n : BitVec 17} : pt.setWidth 17 = n ↔ pt.toNat = n.toNat := by
  have := pt.isLt
  rw [← BitVec.toNat_inj]
  simp [Nat.mod_eq_of_lt (show pt.toNat < 131072 by omega)]

/-- Everything a record write can do (R232): nothing, one of the two faults, or one entry and the count. -/
theorem loadRecord_cases (w : Word) (s : State) :
    loadRecord w s = s ∨
    (s.cbLoading = true ∧ s.loadOvf = false ∧ s.loadOrd = false ∧
      ((s.loadCount.toNat = 65536 ∧ loadRecord w s = { s with loadOvf := true }) ∨
        (s.loadCount.toNat ≠ 65536 ∧ loadRecord w s = { s with loadOrd := true }) ∨
        (s.loadCount.toNat ≠ 65536 ∧ (w.extractLsb' 16 16).toNat = s.loadCount.toNat ∧
          loadRecord w s =
            { s with
              cb := s.cb.set (s.loadCount.setWidth 16) (w.extractLsb' 0 16)
              loadCount := s.loadCount + 1#17 }))) := by
  unfold loadRecord
  split_ifs with a b c
  · exact .inl rfl
  all_goals
    simp only [Bool.or_eq_true, Bool.not_eq_true', not_or, Bool.not_eq_true, Bool.not_eq_false] at a
    refine .inr ⟨a.1.1, a.1.2, a.2, ?_⟩
  · exact .inl ⟨loadCount_full_iff.1 b, rfl⟩
  · exact .inr (.inl ⟨fun h => b (loadCount_full_iff.2 h), rfl⟩)
  · exact .inr (.inr ⟨fun h => b (loadCount_full_iff.2 h),
      record_expected_iff.1 (by simpa using c), rfl⟩)

end Sys2Proof.Machine
end

