-- ==== Sys2Proof/Laws/Decode.lean ====
section
/-! SUPPORT. The fields of an encoded command, what an accepted word looks like, and byte lanes. -/

namespace Sys2Proof

/-- A decoder branch accepts exactly when its reserved bits are 0. -/
theorem withReserved_eq_ok_iff {w m : Word} {i j : Instr} :
    withReserved w m i = .ok j ↔ w &&& m = 0#32 ∧ i = j := by
  unfold withReserved
  split <;> simp [*]

/-- A decoder branch rejects only with a reserved bit. -/
theorem withReserved_eq_error_iff {w m : Word} {i : Instr} {e : IllegalWord} :
    withReserved w m i = .error e ↔ w &&& m ≠ 0#32 ∧ e = .reservedBit := by
  unfold withReserved
  split <;> simp_all [eq_comm]

/-- A word is its four byte lanes, little-endian (R75). -/
@[simp] theorem ofBytes_byteLanes (w : Word) :
    ofBytes (byteLane w 0) (byteLane w 1) (byteLane w 2) (byteLane w 3) = w := by
  apply BitVec.eq_of_getLsbD_eq
  intro k hk
  change (BitVec.getLsbD (w := 8 + 8 + 8 + 8) _ k) = _
  simp only [ofBytes, byteLane, BitVec.getLsbD_append, BitVec.getLsbD_extractLsb']
  split_ifs <;> (rw [decide_eq_true (by omega), Bool.true_and]; congr 1; omega)

/-- Decoding the four byte lanes of a word is decoding the word. -/
@[simp] theorem decodeBytes_toBytes (w : Word) : decodeBytes (toBytes w) = decode w := by
  simp [toBytes, decodeBytes]

/-- The fields the decoder reads from ENCRYPT's word (R104). -/
theorem fields_encode_encrypt (pt : Block) :
    opcField (encode (.encrypt pt)) = 0x01#8 ∧ ptField (encode (.encrypt pt)) = pt ∧
      encode (.encrypt pt) &&& 0x0000FF00#32 = 0#32 := by
  have hbit : ∀ k, (encode (.encrypt pt)).getLsbD k =
      if k < 16 then (0x0001#16).getLsbD k else pt.getLsbD (k - 16) := fun k =>
    BitVec.getLsbD_append
  refine ⟨?_, ?_, ?_⟩ <;> apply BitVec.eq_of_getLsbD_eq <;> intro k hk
  · have h16 : k < 16 := by omega
    simp [opcField, hbit, hk, h16]
  · simp [ptField, hbit, hk]
  · rw [BitVec.getLsbD_and, hbit, BitVec.getLsbD_zero]
    split
    · have low : ∀ k ∈ List.range 16, ((0x0001#16).getLsbD k && (0x0000FF00#32).getLsbD k) = false := by
        decide
      exact low k (List.mem_range.2 (by omega))
    · have high : ∀ k ∈ List.range 32, ¬ k < 16 → (0x0000FF00#32).getLsbD k = false := by decide
      simp [high k (List.mem_range.2 hk) (by assumption)]

/-- The fields the decoder reads from ATTACK_STEP's word (R105). -/
theorem fields_encode_attackStep : ∀ (tgt : Nibble) (fold : Bool),
    opcField (encode (.attackStep tgt fold)) = 0x06#8 ∧ tgtField (encode (.attackStep tgt fold)) = tgt ∧
      foldField (encode (.attackStep tgt fold)) = fold ∧
      encode (.attackStep tgt fold) &&& 0xFFFFE000#32 = 0#32 := by decide

/-- A word is determined by its upper half, its byte of bits [15:8] and its OPC (R100). -/
theorem word_ext_fields {u w : Word} (hp : ptField u = ptField w)
    (hf : u.extractLsb' 8 8 = w.extractLsb' 8 8) (ho : opcField u = opcField w) : u = w := by
  apply BitVec.eq_of_getLsbD_eq
  intro k hk
  by_cases h8 : k < 8
  · simpa [opcField, BitVec.getLsbD_extractLsb', h8] using congrArg (fun v => v.getLsbD k) ho
  by_cases h16 : k < 16
  · simpa [BitVec.getLsbD_extractLsb', show k - 8 < 8 by omega, show 8 + (k - 8) = k by omega] using
      congrArg (fun v => v.getLsbD (k - 8)) hf
  · simpa [ptField, BitVec.getLsbD_extractLsb', show k - 16 < 16 by omega,
      show 16 + (k - 16) = k by omega] using congrArg (fun v => v.getLsbD (k - 16)) hp

end Sys2Proof
end

