-- ==== Sys2Proof/Laws/Window.lean ====
section
/-! SUPPORT. Offsets, reads and writes of the register window, said once for every proof about the bus. -/

namespace Sys2Proof.Machine

/-- Every register is found at its offset (R20). -/
@[simp] theorem regAt_offset (r : Reg) : regAt r.offset = some r := by cases r <;> decide

/-- A register found at an offset has that offset. -/
theorem offset_of_regAt {off : BitVec 8} {r : Reg} (h : regAt off = some r) : r.offset = off := by
  have := List.find?_some h
  simpa using this

theorem unlocked_iff {off : BitVec 8} :
    unlocked off = true ↔ off = 0x04#8 ∨ off = 0x08#8 := by
  change (decide (off = 0x04#8) || decide (off = 0x08#8)) = true ↔ _
  simp

/-- A write while the engine is idle is the register's own rule (R78). -/
theorem writeWindow_idle {s : State} (h : s.busy = false) (off : BitVec 8) (v : Word) :
    writeWindow off v s = match regAt off with | some r => r.write v s | none => s := by
  cases hr : regAt off <;> simp [writeWindow, h, hr]

theorem writeWindow_reg_idle {s : State} (h : s.busy = false) (r : Reg) (v : Word) :
    writeWindow r.offset v s = r.write v s := by
  simp [writeWindow, h]

/-- A write while a command is in flight is dropped and sets BUSY_VIOL, but for CTRL and STATUS (R78). -/
theorem writeWindow_busy {s : State} (h : s.busy = true) {off : BitVec 8} (hc : off ≠ 0x04#8)
    (hs : off ≠ 0x08#8) (v : Word) : writeWindow off v s = { s with busyViol := true } := by
  have : unlocked off = false := by rw [← Bool.not_eq_true, unlocked_iff]; simp [hc, hs]
  simp [writeWindow, h, this]

/-- CTRL and STATUS are written whether BUSY is 0 or 1 (R78). -/
theorem writeWindow_ctrl (s : State) (v : Word) : writeWindow 0x04#8 v s = { s with irqEn := v.getLsbD 0 } := by
  cases h : s.busy <;> simp [writeWindow, h, show unlocked 0x04#8 = true by decide,
    show regAt 0x04#8 = some .ctrl by decide, Reg.write]

theorem writeWindow_status (s : State) (v : Word) : writeWindow 0x08#8 v s = writeStatus v s := by
  cases h : s.busy <;> simp [writeWindow, h, show unlocked 0x08#8 = true by decide,
    show regAt 0x08#8 = some .status by decide, Reg.write]

/-- Everything a write of the window can do. -/
theorem writeWindow_cases (off : BitVec 8) (v : Word) (s : State) :
    (s.busy = true ∧ writeWindow off v s = { s with busyViol := true }) ∨
    (off = 0x04#8 ∧ writeWindow off v s = { s with irqEn := v.getLsbD 0 }) ∨
    (off = 0x08#8 ∧ writeWindow off v s = writeStatus v s) ∨
    (s.busy = false ∧ ∃ r, regAt off = some r ∧ writeWindow off v s = r.write v s) ∨
    (s.busy = false ∧ writeWindow off v s = s) := by
  by_cases hc : off = 0x04#8
  · exact .inr (.inl ⟨hc, by rw [hc, writeWindow_ctrl]⟩)
  by_cases hs : off = 0x08#8
  · exact .inr (.inr (.inl ⟨hs, by rw [hs, writeWindow_status]⟩))
  by_cases hb : s.busy = true
  · exact .inl ⟨hb, writeWindow_busy hb hc hs v⟩
  · have hb' : s.busy = false := by simpa using hb
    rw [writeWindow_idle hb']
    cases hr : regAt off with
    | none => exact .inr (.inr (.inr (.inr ⟨hb', rfl⟩)))
    | some r => exact .inr (.inr (.inr (.inl ⟨hb', r, rfl, rfl⟩)))

@[simp] theorem inFlight_idle {s : State} (h : s.busy = false) : inFlight s = none := by
  simp [inFlight, h]

theorem inFlight_busy {s : State} (h : s.busy = true) {i : Instr} (hd : decode s.cmdPending = .ok i) :
    inFlight s = some i := by simp [inFlight, h, hd]

theorem inFlight_illegal {s : State} {e : IllegalWord} (hd : decode s.cmdPending = .error e) :
    inFlight s = none := by simp [inFlight, hd]

/-- With no bit of the write set in it, a register reads its current value (R77, R79). -/
theorem readWindow_reg {s : State} {r : Reg} (h : anyBits s r = 0#32) :
    readWindow r.offset s = r.value s := by
  rw [readWindow, regAt_offset]
  simp [h]

/-- Every register reads its value but for the bits of the write set in flight, which read as drawn (R79). -/
theorem readWindow_mixed (s : State) (r : Reg) :
    readWindow r.offset s = (r.value s &&& ~~~ anyBits s r) ||| (Config.anyRead s.draws &&& anyBits s r) := by
  by_cases h : anyBits s r = 0#32
  · rw [readWindow_reg h, h]
    simp only [show ~~~ (0#32) = BitVec.allOnes 32 by decide, BitVec.and_allOnes, BitVec.and_zero, BitVec.or_zero]
  · rw [readWindow, regAt_offset]
    simp [h]

theorem readWindow_idle {s : State} (h : s.busy = false) (r : Reg) :
    readWindow r.offset s = r.value s :=
  readWindow_reg (by simp [anyBits, inFlight_idle h])

/-- A whole register of the write set reads the value drawn for the read (R79). -/
theorem readWindow_any {s : State} {r : Reg} (h : anyBits s r = 0xFFFFFFFF#32) :
    readWindow r.offset s = Config.anyRead s.draws := by
  rw [readWindow_mixed]
  simp only [h, show (0xFFFFFFFF#32 : Word) = BitVec.allOnes 32 by decide, BitVec.not_allOnes,
    BitVec.and_allOnes, BitVec.and_zero, BitVec.zero_or]

/-- A legal access, spelled out (R74). -/
theorem legalAccess_iff {off : BitVec 8} {width : BusWidth} :
    legalAccess off width = true ↔ width = .word ∧ off.toNat % 4 = 0 := by
  simp [legalAccess]

theorem busRead_legal {off : BitVec 8} (h : off.toNat % 4 = 0) (s : State) :
    busRead off .word s = respond (.read (readWindow off s) false) s := by
  simp [busRead, legalAccess_iff.2 ⟨rfl, h⟩]

theorem busWrite_legal {off : BitVec 8} (h : off.toNat % 4 = 0) (v : Word) (s : State) :
    busWrite off .word 0xF#4 v s = respond (.write false) (writeWindow off v s) := by
  simp [busWrite, legalWrite, legalAccess_iff.2 ⟨rfl, h⟩]

/-- A bus write either takes effect through the window or is answered with an error. -/
theorem busWrite_cases (off : BitVec 8) (width : BusWidth) (strobes : BitVec 4) (v : Word) (s : State) :
    (width = .word ∧ strobes = 0xF#4 ∧ off.toNat % 4 = 0 ∧
      busWrite off width strobes v s = respond (.write false) (writeWindow off v s)) ∨
    busWrite off width strobes v s = respond (.write true) s := by
  unfold busWrite
  split
  · rename_i h
    simp [legalWrite, legalAccess] at h
    exact .inl ⟨h.1.1, h.2, h.1.2, rfl⟩
  · exact .inr rfl

/-- A read changes what the host has received, and nothing else (R77). -/
theorem busRead_eq (off : BitVec 8) (width : BusWidth) (s : State) :
    ∃ r, busRead off width s = respond r s := by
  unfold busRead
  split <;> exact ⟨_, rfl⟩

/-- An idle engine has no write set (R79). -/
@[simp] theorem anyBits_idle {s : State} (h : s.busy = false) (r : Reg) : anyBits s r = 0#32 := by
  simp [anyBits, inFlight_idle h]

/-- A write while a command is in flight reaches CTRL, DONE and BUSY_VIOL at most (R78). -/
theorem writeWindow_busy_frame {s : State} (h : s.busy = true) (off : BitVec 8) (v : Word) :
    ∃ en done viol, writeWindow off v s = { s with irqEn := en, done := done, busyViol := viol } := by
  rcases writeWindow_cases off v s with ⟨-, hw⟩ | ⟨-, hw⟩ | ⟨-, hw⟩ | ⟨h0, -⟩ | ⟨h0, -⟩
  · exact ⟨_, _, _, hw⟩
  · exact ⟨_, _, _, hw⟩
  · exact ⟨_, _, _, hw⟩
  · simp [h] at h0
  · simp [h] at h0

/-- What no register write changes: ERR, the LAT and candidate RAMs, CB_VALID, CB_LOADING and the attack's results; and only a record
write changes the codebook RAM and the load state. -/
theorem Reg.write_frame (r : Reg) (v : Word) (s : State) :
    (r.write v s).err = s.err ∧ (r.write v s).cand = s.cand ∧ (r.write v s).lat = s.lat ∧
    (r.write v s).cbValid = s.cbValid ∧ (r.write v s).cbLoading = s.cbLoading ∧
    (r.write v s).atkStatus = s.atkStatus ∧ (r.write v s).atkWinner = s.atkWinner ∧
    (r ≠ .cbLoad → (r.write v s).cb = s.cb ∧ (r.write v s).loadCount = s.loadCount ∧
      (r.write v s).loadOvf = s.loadOvf ∧ (r.write v s).loadOrd = s.loadOrd) := by
  cases r
  case cbLoad =>
    simp only [Reg.write, loadRecord]
    split_ifs <;> simp
  all_goals exact ⟨rfl, rfl, rfl, rfl, rfl, rfl, rfl, fun _ => ⟨rfl, rfl, rfl, rfl⟩⟩

end Sys2Proof.Machine
end

