-- ==== Sys2Proof/Laws/Flags.lean ====
section
/-! SUPPORT. The registers made of fields, bit by bit: what STATUS, ERR, ATK_STATUS and CB_LOAD_STAT hold, and when a read is the
register's current value. -/

namespace Sys2Proof.Machine

/-- A flag's word has the flag at its place, and nothing else. -/
@[simp] theorem getLsbD_flagBit (i k : Nat) (b : Bool) :
    (flagBit i b).getLsbD k = (decide (k < 32) && decide (k = i) && b) := by
  rw [flagBit, BitVec.getLsbD_shiftLeft, BitVec.getLsbD_setWidth, BitVec.getLsbD_ofBool]
  rcases Nat.lt_trichotomy k i with h | h | h
  · simp [h, show k ≠ i by omega]
  · subst h
    cases decide (k < 32) <;> simp
  · simp [show k ≠ i by omega, show k - i ≠ 0 by omega]

/-- STATUS bit by bit (R23). -/
theorem getLsbD_statusWord (s : State) {k : Nat} (hk : k < 32) :
    (statusWord s).getLsbD k =
      (decide (k = 0) && s.busy || decide (k = 1) && s.done || decide (k = 2) && s.cbValid ||
        decide (k = 3) && s.latValid || decide (k = 4) && s.cbLoading || decide (k = 5) && s.busyViol) := by
  simp only [statusWord, BitVec.getLsbD_or, getLsbD_flagBit, hk, decide_true, Bool.true_and]

/-- The low part of a word put together from two. -/
theorem extract_append_low {n m : Nat} (x : BitVec n) (y : BitVec m) : (x ++ y).extractLsb' 0 m = y := by
  apply BitVec.eq_of_getLsbD_eq
  intro k hk
  simp [BitVec.getLsbD_append, hk]

/-- A field above the low part of a word put together from two. -/
theorem extract_append_high {n m : Nat} (x : BitVec n) (y : BitVec m) (i l : Nat) :
    (x ++ y).extractLsb' (m + i) l = x.extractLsb' i l := by
  apply BitVec.eq_of_getLsbD_eq
  intro k hk
  simp [BitVec.getLsbD_append, hk, show ¬ m + i + k < m by omega, show m + i + k - m = i + k by omega]

/-- A bit above the low part of a word put together from two. -/
theorem getLsbD_append_high {n m : Nat} (x : BitVec n) (y : BitVec m) (i : Nat) :
    (x ++ y).getLsbD (m + i) = x.getLsbD i := by
  simp [BitVec.getLsbD_append]

/-- A flag at the low end of a word. -/
theorem getLsbD_append_flag {n : Nat} (x : BitVec n) (b : Bool) : (x ++ BitVec.ofBool b).getLsbD 0 = b := by
  rw [BitVec.getLsbD_append]
  cases b <;> simp

/-- ERR field by field (R24). -/
theorem errWord_fields (e : ErrReg) :
    (errWord e).extractLsb' 24 8 = e.lastOp ∧ (errWord e).extractLsb' 8 16 = e.info ∧
    (errWord e).extractLsb' 4 4 = e.sub ∧ (errWord e).extractLsb' 0 4 = e.code.bits := by
  have above := extract_append_high (e.lastOp ++ e.info ++ e.sub) e.code.bits
  have above' := extract_append_high (e.lastOp ++ e.info) e.sub
  refine ⟨?_, ?_, ?_, extract_append_low _ _⟩
  · exact (above 20 8).trans ((above' 16 8).trans ((extract_append_high e.lastOp e.info 0 8).trans (by simp)))
  · exact (above 4 16).trans ((above' 0 16).trans (extract_append_low _ _))
  · exact (above 0 4).trans (extract_append_low _ _)

/-- ATK_STATUS field by field (R37). -/
theorem atkStatusWord_fields (a : AtkStatus) :
    (atkStatusWord a).extractLsb' 0 2 = a.outcome.bits ∧ (atkStatusWord a).getLsbD 2 = a.folded ∧
    (atkStatusWord a).getLsbD 3 = false ∧ (atkStatusWord a).extractLsb' 4 4 = a.tgt ∧
    (atkStatusWord a).extractLsb' 8 8 = 0#8 ∧ (atkStatusWord a).extractLsb' 16 9 = a.survivors ∧
    (atkStatusWord a).extractLsb' 25 7 = 0#7 := by
  obtain ⟨outcome, folded, tgt, n⟩ := a
  have low (i l : Nat) : (atkStatusWord ⟨outcome, folded, tgt, n⟩).extractLsb' (2 + (1 + (1 + i))) l =
      (0#7 ++ n ++ 0#8 ++ tgt).extractLsb' i l :=
    (extract_append_high _ _ _ _).trans ((extract_append_high _ _ _ _).trans (extract_append_high _ _ _ _))
  have high (i l : Nat) : (0#7 ++ n ++ 0#8 ++ tgt).extractLsb' (4 + (8 + i)) l = (0#7 ++ n).extractLsb' i l :=
    (extract_append_high _ _ _ _).trans (extract_append_high _ _ _ _)
  refine ⟨extract_append_low _ _, ?_, ?_, (low 0 4).trans (extract_append_low _ _), ?_,
    (low 12 9).trans ((high 0 9).trans (extract_append_low _ _)), ?_⟩
  · exact (getLsbD_append_high _ _ 0).trans (getLsbD_append_flag _ _)
  · exact (getLsbD_append_high _ _ 1).trans ((getLsbD_append_high _ _ 0).trans (getLsbD_append_flag _ false))
  · exact (low 4 8).trans ((extract_append_high _ _ 0 8).trans (extract_append_low _ _))
  · exact (low 21 7).trans ((high 9 7).trans ((extract_append_high _ _ 0 7).trans (by simp)))

/-- CB_LOAD_STAT field by field (R49). -/
theorem cbLoadStatWord_fields (s : State) :
    (cbLoadStatWord s).extractLsb' 0 17 = s.loadCount ∧ (cbLoadStatWord s).extractLsb' 17 7 = 0#7 ∧
    (cbLoadStatWord s).getLsbD 24 = s.loadOvf ∧ (cbLoadStatWord s).getLsbD 25 = s.loadOrd ∧
    (cbLoadStatWord s).extractLsb' 26 6 = 0#6 := by
  have flags (i : Nat) : (cbLoadStatWord s).getLsbD (17 + (7 + i)) =
      (0#6 ++ BitVec.ofBool s.loadOrd ++ BitVec.ofBool s.loadOvf).getLsbD i :=
    (getLsbD_append_high _ _ _).trans (getLsbD_append_high _ _ _)
  refine ⟨extract_append_low _ _, (extract_append_high _ _ 0 7).trans (extract_append_low _ _),
    (flags 0).trans (getLsbD_append_flag _ _),
    (flags 1).trans ((getLsbD_append_high _ _ 0).trans (getLsbD_append_flag _ _)), ?_⟩
  exact (extract_append_high _ _ 9 6).trans ((extract_append_high _ _ 2 6).trans
    ((extract_append_high _ _ 1 6).trans ((extract_append_high _ _ 0 6).trans (by simp))))

/-- A bit outside the write set in flight reads as the register's current value (R77, R79). -/
theorem getLsbD_readWindow {s : State} {r : Reg} {k : Nat} (h : (anyBits s r).getLsbD k = false) :
    (readWindow r.offset s).getLsbD k = (r.value s).getLsbD k := by
  rw [readWindow_mixed]
  simp only [BitVec.getLsbD_or, BitVec.getLsbD_and, BitVec.getLsbD_not, h]
  by_cases hk : k < 32
  · simp [hk]
  · simp [hk, BitVec.getLsbD_of_ge _ _ (Nat.not_lt.1 hk)]

end Sys2Proof.Machine
end

