-- ==== Sys2Proof/Laws/Lat.lean ====
section
/-! SUPPORT. The index of the LAT RAM, the range of an entry, and what the table holds. -/

namespace Sys2Proof.Machine

/-- The row of an index a ++ b (R44, R53). -/
theorem latIndex_row (a b : Nibble) : (a ++ b : BitVec 8).extractLsb' 4 4 = a := by
  apply BitVec.eq_of_getLsbD_eq
  intro k hk
  have := BitVec.getLsbD_append (x := a) (y := b) (i := 4 + k)
  simp only [BitVec.getLsbD_extractLsb', hk, decide_true, Bool.true_and, this]
  simp

/-- The column of an index a ++ b (R44, R53). -/
theorem latIndex_column (a b : Nibble) : (a ++ b : BitVec 8).extractLsb' 0 4 = b := by
  apply BitVec.eq_of_getLsbD_eq
  intro k hk
  have := BitVec.getLsbD_append (x := a) (y := b) (i := k)
  simp only [BitVec.getLsbD_extractLsb', hk, decide_true, Bool.true_and, Nat.zero_add, this]
  simp [hk]

/-- An entry counts at most 16 agreements. -/
theorem latAgreements_le (t : Table) (a b : Nibble) :
    (allNibbles.countP fun x => maskedParity x a == maskedParity (t.entry x) b) ≤ 16 := by
  refine le_trans List.countP_le_length ?_
  simp [allNibbles]

/-- The table's entry as the RAM holds it: it fits its 5 bits (R53, R171). -/
theorem latTable_get (t : Table) (a b : Nibble) : ((latTable t).get (a ++ b)).toInt = latValue t a b := by
  have := latAgreements_le t a b
  have hr : -8 ≤ latValue t a b ∧ latValue t a b ≤ 8 := by unfold latValue; omega
  rw [latTable, Ram.get_tabulate, latIndex_row, latIndex_column, BitVec.toInt_ofInt]
  exact Int.bmod_eq_of_le (by omega) (by omega)

end Sys2Proof.Machine
end

