-- ==== Sys2Proof/Laws/PerInstr.lean ====
section
/-! SUPPORT. What holds of every command as syntax: the family Encoding says that its word is a word of the opcode map. -/

namespace Sys2Proof.Laws.Encoding

/-- The command's word matches a row of the opcode map, and that row's mnemonic is the command's (R106). -/
def Statement (i : Instr) : Prop :=
  ∃ row ∈ opcodeMap, row.mnemonic = i.mnemonic ∧ opcField (encode i) = row.opc ∧
    encode i &&& row.mask = row.matchBits

/-- ENCRYPT: bits [15:8] are 0 whatever the operand (R104, R106). -/
theorem encrypt (pt : Block) : Statement (.encrypt pt) := by
  obtain ⟨hopc, -, hres⟩ := fields_encode_encrypt pt
  refine ⟨⟨0x01#8, "ENCRYPT", 0x00000001#32, 0x0000FFFF#32⟩, by simp [opcodeMap], rfl, hopc, ?_⟩
  have hbit : ∀ k, (encode (.encrypt pt)).getLsbD k =
      if k < 16 then (0x0001#16).getLsbD k else pt.getLsbD (k - 16) := fun k =>
    BitVec.getLsbD_append
  apply BitVec.eq_of_getLsbD_eq
  intro k hk
  rw [BitVec.getLsbD_and, hbit]
  by_cases h : k < 16
  · have low : ∀ k ∈ List.range 16,
        ((0x0001#16).getLsbD k && (0x0000FFFF#32).getLsbD k) = (0x00000001#32).getLsbD k := by decide
    rw [if_pos h]
    exact low k (List.mem_range.2 h)
  · have high : ∀ k ∈ List.range 32, ¬ k < 16 →
        (0x0000FFFF#32).getLsbD k = false ∧ (0x00000001#32).getLsbD k = false := by decide
    rw [if_neg h, (high k (List.mem_range.2 hk) h).1, (high k (List.mem_range.2 hk) h).2, Bool.and_false]

theorem genCodebook : Statement .genCodebook := by
  exact ⟨⟨0x02#8, "GEN_CODEBOOK", 0x00000002#32, 0xFFFFFFFF#32⟩, by simp [opcodeMap], by decide⟩

theorem buildLat : Statement .buildLat := by
  exact ⟨⟨0x03#8, "BUILD_LAT", 0x00000003#32, 0xFFFFFFFF#32⟩, by simp [opcodeMap], by decide⟩

theorem cbLoadBegin : Statement .cbLoadBegin := by
  exact ⟨⟨0x04#8, "CB_LOAD_BEGIN", 0x00000004#32, 0xFFFFFFFF#32⟩, by simp [opcodeMap], by decide⟩

theorem cbLoadEnd : Statement .cbLoadEnd := by
  exact ⟨⟨0x05#8, "CB_LOAD_END", 0x00000005#32, 0xFFFFFFFF#32⟩, by simp [opcodeMap], by decide⟩

/-- ATTACK_STEP: bits [31:13] are 0 whatever the operands (R105, R106). -/
theorem attackStep (tgt : Nibble) (fold : Bool) : Statement (.attackStep tgt fold) := by
  have key : ∀ (tgt : Nibble) (fold : Bool),
      opcField (encode (.attackStep tgt fold)) = 0x06#8 ∧
        encode (.attackStep tgt fold) &&& 0xFFFFE0FF#32 = 0x00000006#32 := by decide
  exact ⟨⟨0x06#8, "ATTACK_STEP", 0x00000006#32, 0xFFFFE0FF#32⟩, by simp [opcodeMap], rfl, key tgt fold⟩

theorem validate : Statement .validate := by
  exact ⟨⟨0x07#8, "VALIDATE", 0x00000007#32, 0xFFFFFFFF#32⟩, by simp [opcodeMap], by decide⟩

end Sys2Proof.Laws.Encoding
end

