-- ==== Sys2Proof/Machine/HostProgram.lean ====
section
/-! DEFINITION. The host-program notation of spec/30_encoding.md R112 as an agent over the machine: the host's statements give the
machine its bus accesses one at a time, and a read's data comes back to the program. `step` knows nothing of it: a program is one
way to choose the inputs of `hostQueue` (log 15). -/

namespace Sys2Proof.Machine

/-- An operand value: numbers, names and loop variables, and `+ << >> OR AND` on unbounded non-negative integers (R112). A name is a
number here. -/
inductive HostExpr where
  | num (n : Nat)
  | name (x : Nat)
  | add (a b : HostExpr)
  | shl (a b : HostExpr)
  | shr (a b : HostExpr)
  | or (a b : HostExpr)
  | and (a b : HostExpr)
deriving DecidableEq, Repr

/-- A host statement (R112). -/
inductive HostStmt where
  /-- WR REG, v -/
  | wr (r : Reg) (v : HostExpr)
  /-- RD REG -> x -/
  | rd (r : Reg) (x : Nat)
  /-- l: -/
  | label (l : Nat)
  /-- BNZ x, mask, l -/
  | bnz (x : Nat) (mask : HostExpr) (l : Nat)
  /-- BZ x, mask, l -/
  | bz (x : Nat) (mask : HostExpr) (l : Nat)
  /-- FOR n = a TO b -/
  | forTo (n : Nat) (a b : HostExpr)
  /-- END of the innermost FOR -/
  | endFor
  /-- STOP -/
  | stop
deriving DecidableEq, Repr

/-- A running FOR loop: where its body starts, its variable and its last value. -/
structure HostLoop where
  body : Nat
  name : Nat
  last : Nat
deriving DecidableEq, Repr

/-- A host program at work on the machine. -/
structure HostRun where
  machine : State
  prog : List HostStmt
  pc : Nat
  names : List (Nat × Nat)
  loops : List HostLoop
  /-- The name that the read under way is bound to. -/
  awaiting : Option Nat
  stopped : Bool
deriving DecidableEq, Repr

/-- A program at its first statement. -/
def HostRun.start (s : State) (prog : List HostStmt) : HostRun := ⟨s, prog, 0, [], [], none, false⟩

/-- The value of an expression; none where a name is not bound. -/
def HostExpr.eval (names : List (Nat × Nat)) : HostExpr → Option Nat
  | .num n => some n
  | .name x => names.lookup x
  | .add a b => do return (← a.eval names) + (← b.eval names)
  | .shl a b => do return (← a.eval names) <<< (← b.eval names)
  | .shr a b => do return (← a.eval names) >>> (← b.eval names)
  | .or a b => do return (← a.eval names) ||| (← b.eval names)
  | .and a b => do return (← a.eval names) &&& (← b.eval names)

/-- Where a label stands; none where it does not (R112). The spec does not say where a branch goes when a label stands twice, as
WAITDONE's `w` does in a program that waits twice. DESIGN CHOICE (log 15): the first place counts, and fresh labels are left to the
writer of the program, to whom `waitDone` and `runCommand` leave the label. -/
def labelIndex (prog : List HostStmt) (l : Nat) : Option Nat :=
  prog.findIdx? fun st => decide (st = .label l)

/-- The distance from a FOR's body to just after its END, `depth` FORs inside it being open; none where there is no END. -/
def loopExit : List HostStmt → Nat → Option Nat
  | [], _ => none
  | .endFor :: _, 0 => some 1
  | .endFor :: rest, depth + 1 => (loopExit rest depth).map (· + 1)
  | .forTo _ _ _ :: rest, depth => (loopExit rest (depth + 1)).map (· + 1)
  | _ :: rest, depth => (loopExit rest depth).map (· + 1)

/-- A name bound, its old value gone. -/
def HostRun.bind (h : HostRun) (x v : Nat) : HostRun :=
  { h with names := (x, v) :: h.names.filter fun p => decide (p.1 ≠ x) }

/-- A branch: to the label when `taken`, else to the next statement. -/
def HostRun.branch (h : HostRun) (taken : Bool) (l : Nat) : Option HostRun :=
  if taken then (labelIndex h.prog l).map fun i => { h with pc := i } else some { h with pc := h.pc + 1 }

/-- One statement (R112). None where it has no meaning: an unbound name, a label or an END that is not there. The spec does not say
how a FOR goes on when its body rebinds the loop variable, by a RD to it or by an inner FOR of the same name. DESIGN CHOICE (log 15):
names and loop variables share one list, so END counts on from the rebound value, and leaves the loop once that is not below the
last. Nor does it say when the bounds are evaluated, or what a loop variable holds after its END. DESIGN CHOICE (log 15): both bounds
are evaluated once, at the FOR statement and before the loop variable is bound, and the last value is kept as that number whatever the
body rebinds; after the END the variable stays bound, to the last value unless the body rebound it; a FOR that runs not at all binds
nothing. An END closes the innermost FOR still open, also where a branch has left that FOR's body, and an END with none open has no
meaning. -/
def HostRun.statement (h : HostRun) : Option HostRun :=
  match h.prog[h.pc]? with
  | none => some { h with stopped := true }
  | some .stop => some { h with stopped := true }
  | some (.label _) => some { h with pc := h.pc + 1 }
  | some (.wr r v) => do
    let value ← v.eval h.names
    return { h with
      pc := h.pc + 1
      machine := { h.machine with hostQueue := [.write r.offset .word 0xF#4 (BitVec.ofNat 32 value)] } }
  | some (.rd r x) =>
    some { h with
      pc := h.pc + 1
      awaiting := some x
      machine := { h.machine with hostQueue := [.read r.offset .word] } }
  | some (.bnz x mask l) => do
    let value ← h.names.lookup x
    let m ← mask.eval h.names
    h.branch (decide (value &&& m ≠ 0)) l
  | some (.bz x mask l) => do
    let value ← h.names.lookup x
    let m ← mask.eval h.names
    h.branch (decide (value &&& m = 0)) l
  | some (.forTo n a b) => do
    let first ← a.eval h.names
    let last ← b.eval h.names
    if first ≤ last then
      return { h.bind n first with pc := h.pc + 1, loops := ⟨h.pc + 1, n, last⟩ :: h.loops }
    else
      let skip ← loopExit (h.prog.drop (h.pc + 1)) 0
      return { h with pc := h.pc + 1 + skip }
  | some .endFor =>
    match h.loops with
    | [] => none
    | loop :: rest => do
      let value ← h.names.lookup loop.name
      if value < loop.last then return { h.bind loop.name (value + 1) with pc := loop.body }
      else return { h with pc := h.pc + 1, loops := rest }

/-- The data of the latest response, bound to the name the read awaits. -/
def HostRun.receive (h : HostRun) (x : Nat) : Option HostRun :=
  match h.machine.busLog with
  | .read data _ :: _ => some { h.bind x data.toNat with awaiting := none }
  | _ => none

/-- One step of the host program and the machine together: the machine steps while an access waits; then a read's data is received;
then the host's next statement runs. -/
def HostRun.step (h : HostRun) : Option HostRun :=
  match h.machine.hostQueue with
  | _ :: _ =>
    match Sys2Proof.Machine.step h.machine with
    | .next t => some { h with machine := t }
    | _ => none
  | [] =>
    match h.awaiting with
    | some x => h.receive x
    | none => if h.stopped then some h else h.statement

/-- CMD <command> (R112). -/
def HostStmt.command (i : Instr) : HostStmt := .wr .cmd (.num (encode i).toNat)

/-- WAITDONE, polling STATUS into the name `x` at the label `l`, which the writer of the program keeps fresh (R112; log 15). -/
def waitDone (l x : Nat) : List HostStmt := [.label l, .rd .status x, .bz x (.num 0x2) l]

/-- RUN <command> (R112). -/
def runCommand (i : Instr) (l x : Nat) : List HostStmt := HostStmt.command i :: waitDone l x

/-- ACK (R112). -/
def HostStmt.ack : HostStmt := .wr .status (.num 0x2)

end Sys2Proof.Machine
end

