-- ==== Sys2Proof/Tests/Slice0.lean ====
section
/-! SUPPORT. The model's own tests: the WellFormed smoke test, words decoded from the spec's patterns, one or two steps on the spec's
vectors (spec/95_test_vectors.md, named V<n>) for each command, and for every statement with hypotheses a witness that meets them. -/

namespace Sys2Proof.Tests

open Sys2Proof Sys2Proof.Machine Sys2Proof.Spec

/-- A command word in flight with `n` engine steps left, on `s`. -/
def flying (w : Word) (n : Nat) (s : State) : State :=
  { s with busy := true, cmdPending := w, remaining := n }

/-- The next state, where there is one. -/
def landing (o : Host.Outcome State Fault Refusal) : Option State :=
  match o with
  | .next t => some t
  | _ => none

/-- The state after the command `i` alone, run from `s` by the step. -/
def ran (i : Instr) (s : State) : Option State := landing (step (s.withFetchWord 32 (encode i).toNat))

theorem landing_eq {o : Host.Outcome State Fault Refusal} {t : State} (h : landing o = some t) : o = .next t := by
  cases o <;> simp_all [landing]

/-! ## Well-formed words: each check refuses an ill-formed one -/

theorem test_wellFormed_refuses_opcode_zero : wellFormedWord 0x00000000#32 = false := by decide
theorem test_wellFormed_refuses_opcode_eight : assignedOpcode 0x00000008#32 = false := by decide
theorem test_wellFormed_refuses_reserved_F8 : wellFormedWord 0x00000101#32 = false := by decide
theorem test_wellFormed_refuses_reserved_bit_13 : wellFormedWord 0x00002006#32 = false := by decide
theorem test_wellFormed_refuses_reserved_bit_16 : wellFormedWord 0x00010002#32 = false := by decide
theorem test_wellFormed_takes_the_highest_operands :
    wellFormedWord 0xFFFF0001#32 = true ∧ wellFormedWord 0x00001F06#32 = true := by decide

/-! ## Decoding: words written out from the patterns of R106 -/

theorem test_decode_encrypt :
    decode 0b10101011110011010000000000000001#32 = .ok (.encrypt 0xABCD#16) := by decide
theorem test_decode_genCodebook : decode 0b00000000000000000000000000000010#32 = .ok .genCodebook := by decide
theorem test_decode_buildLat : decode 0b00000000000000000000000000000011#32 = .ok .buildLat := by decide
theorem test_decode_cbLoadBegin : decode 0b00000000000000000000000000000100#32 = .ok .cbLoadBegin := by decide
theorem test_decode_cbLoadEnd : decode 0b00000000000000000000000000000101#32 = .ok .cbLoadEnd := by decide
theorem test_decode_attackStep :
    decode 0b00000000000000000001001000000110#32 = .ok (.attackStep 0b0010#4 true) := by decide
theorem test_decode_validate : decode 0b00000000000000000000000000000111#32 = .ok .validate := by decide
/-- The bytes of 0x12340001 in memory order (R75). -/
theorem test_decodeBytes_little_endian :
    decodeBytes [0x01#8, 0x00#8, 0x34#8, 0x12#8] = .ok (.encrypt 0x1234#16) := by decide
theorem test_decodeTableWord :
    decodeTableWord 32 0x00001C06 = some (.attackStep 0b1100#4 true) ∧ decodeTableWord 32 0x00002006 = none := by
  decide

/-! ## Layers and operands (V1, R193) -/

theorem test_substitute : substitute resetConfig.sbox 0x0123#16 = 0x40C3#16 := by decide
theorem test_permute :
    permute resetConfig.pbox 0x1234#16 = 0x016A#16 ∧ permute resetConfig.pbox 0x00FF#16 = 0x3333#16 := by decide
theorem test_permuteInv : permuteInv resetConfig.pbox 0x3333#16 = 0x00FF#16 := by decide
/-- The rotation P-box of V2.2 pins the direction of PERM. -/
theorem test_permute_direction :
    permute ⟨0x87654321#32, 0x0FEDCBA9#32⟩ 0x8000#16 = 0x4000#16 := by decide
theorem test_spread : spread 0b1100#4 0xCF#8 = 0xCF00#16 ∧ spread 0b0101#4 0xCF#8 = 0x0C0F#16 := by decide

/-! ## One step of each command on the spec's vectors -/

/-- V2.1. -/
theorem test_encrypt :
    (ran (.encrypt 0x1234#16) State.reset).map (fun t => (t.encResult, readWindow 0x0C#8 t, readWindow 0x08#8 t)) =
      some (0x39F7#16, 0x01000000#32, 0x02#32) := by decide
/-- V4: PBOX[1] = 0. -/
theorem test_encrypt_invalid_permutation :
    (landing (exec (.encrypt 0x0000#16) (writeWindow 0x30#8 0xD951C800#32 State.reset))).map
      (fun t => (t.encResult, t.err.code, t.err.info)) = some (0x0000#16, .invalidPermutation, 4#16) := by decide
/-- V3. -/
theorem test_genCodebook :
    (ran .genCodebook State.reset).map
      (fun t => (t.cb.get 0x0001#16, t.cb.get 0x6868#16, t.cb.get 0xFFFF#16, readWindow 0x08#8 t)) =
      some (0x589B#16, 0x0000#16, 0xDA8B#16, 0x06#32) := by decide +kernel
/-- V5.1: the row and column order, and the signs. -/
theorem test_buildLat :
    (ran .buildLat State.reset).map
      (fun t => ((latEntry t 2#4 7#4).toInt, (latEntry t 1#4 13#4).toInt, (latEntry t 13#4 1#4).toInt,
        readWindow 0x08#8 t)) = some (6, -4, 0, 0x0A#32) := by decide
/-- V5.2: the entry -8 through the port. -/
theorem test_latData :
    (ran .buildLat State.reset).map (fun t => readWindow 0xA4#8 (writeWindow 0xA0#8 0xBE#32 t)) =
      some 0xFFFFFFF8#32 := by decide
/-- V6. -/
theorem test_cbLoadBegin :
    (ran .cbLoadBegin State.reset).map (fun t => (readWindow 0x08#8 t, readWindow 0x0C#8 t)) =
      some (0x12#32, 0x04000000#32) := by decide

/-- A load with the records of V6's order fault. -/
def misordered : Option State :=
  (ran .cbLoadBegin State.reset).map fun t =>
    [0x00000000#32, 0x00010001#32, 0x00030003#32, 0x00020002#32].foldl (fun u w => writeWindow 0xB8#8 w u) t

/-- V6: sub 3, INFO 2, and CB_LOAD_STAT. -/
theorem test_cbLoadEnd :
    (misordered.bind (ran .cbLoadEnd)).map (fun t => (readWindow 0x0C#8 t, readWindow 0xBC#8 t, readWindow 0x08#8 t)) =
      some (0x05000233#32, 0x02000002#32, 0x02#32) := by decide
/-- V6: sub 5. -/
theorem test_cbLoadEnd_without_a_load :
    (ran .cbLoadEnd State.reset).map (fun t => readWindow 0x0C#8 t) = some 0x05000053#32 := by decide
/-- V7.8: the S-box check comes before the codebook check. -/
theorem test_attackStep_check_order :
    (landing (exec (.attackStep 0#4 false) (writeWindow 0x20#8 0x9AB83C44#32 State.reset))).map
      (fun t => (t.err.code, t.err.sub, t.err.info)) = some (.invalidSbox, 1#4, 0#16) := by decide
/-- V7.4: the decision from the 16 counts the vector lists. -/
theorem test_attackStep_decision :
    let t := decideStep 0b0010#4 true
      [31200, 32592, 33232, 30792, 32704, 32480, 34800, 32832, 36864, 32640, 32512, 34544, 33136, 30528, 30936, 32496]
      { State.reset with atkThresh := 3000#16, knownVal := 0xCF00#16, knownMask := 0xFF00#16 }
    (atkStatusWord t.atkStatus, t.atkWinner, t.atkBestDev, t.knownVal, t.knownMask) =
      (0x00010025#32, 0x08#8, 0x00001000#32, 0xCF80#16, 0xFFF0#16) := by decide +kernel
/-- V4.1. -/
theorem test_validate :
    (ran .validate State.reset).map (fun t => readWindow 0x0C#8 t) = some 0x07000000#32 := by decide
/-- V4: SBOXI[0] and SBOXI[1] swapped. -/
theorem test_validate_inverse_mismatch :
    (landing (exec .validate (writeWindow 0x28#8 0xBCD03A1F#32 State.reset))).map
      (fun t => (t.err.code, t.err.sub, t.err.info)) = some (.invalidSbox, 3#4, 1#16) := by decide
/-- V8. -/
theorem test_illegal_word :
    (landing (step (State.reset.withFetchWord 32 0x00010002))).map (fun t => readWindow 0x0C#8 t) =
      some 0x02000226#32 := by decide

/-- The host notation: P4's record value, (p << 16) OR c. -/
theorem test_hostExpr :
    (HostExpr.or (.shl (.name 0) (.num 16)) (.name 1)).eval [(0, 3), (1, 5)] = some 0x30005 := by decide

/-- P4's first access: the word a RUN writes. -/
theorem test_hostStatement :
    ((HostRun.start State.reset (runCommand .genCodebook 0 0)).statement).map (·.machine.hostQueue) =
      some [.write 0x10#8 .word 0xF#4 0x00000002#32] := by decide

/-! ## Witnesses: for each statement with hypotheses, a state and operands that meet them, clause by clause -/

/-- The reset state with the host's next input. -/
def facing (a : HostAction) : State := { State.reset with hostQueue := [a] }

/-- The reset state with one configuration register rewritten. -/
def with0x (off : BitVec 8) (v : Word) : State := writeWindow off v State.reset

theorem witness_DecodeOfEncodedCommand : (Instr.encrypt 0xFFFF#16).wellFormed = true := by decide

theorem witness_DecodedWordIsItsEncoding : decode 0xFFFF0001#32 = .ok (.encrypt 0xFFFF#16) := by decide

theorem witness_DecodeClassifiesEveryWord :
    assignedOpcode 0x00000008#32 = false ∧
    (assignedOpcode 0x00002006#32 = true ∧ wellFormedWord 0x00002006#32 = false) ∧
    wellFormedWord 0x00001F06#32 = true := by decide

theorem witness_StepRunsTheCommandInFlight :
    ∃ s : State, s.busy = true ∧ s.remaining ≤ 1 ∧ s.hostQueue.head? ≠ some .reset ∧
      Instr.validate.wellFormed = true ∧ decode s.cmdPending = .ok .validate :=
  ⟨flying 0x00000007#32 1 (facing .idle), by decide⟩

theorem witness_IllegalWordEndsInIllegalCommand :
    assignedOpcode (flying 0x00000008#32 1 State.reset).cmdPending = false ∧
    (assignedOpcode (flying 0x00002006#32 1 State.reset).cmdPending = true ∧
      wellFormedWord (flying 0x00002006#32 1 State.reset).cmdPending = false) ∧
    wellFormedWord (flying 0x00001F06#32 1 State.reset).cmdPending = true := by decide

theorem witness_StepPerformsTheNextAccess :
    ∃ s : Nat → HostAction → State, ∀ n a, ((s n a).busy = true → 1 < (s n a).remaining) ∧
      (s n a).hostQueue = a :: [] :=
  ⟨fun n a => flying 0x00000007#32 (n + 2) (facing a), fun _ _ => ⟨fun _ => by simp [flying], rfl⟩⟩

theorem witness_CmdWriteIssuesTheWordOnlyWhileIdle :
    State.reset.busy = false ∧ (flying 0x00000007#32 2 State.reset).busy = true := by decide

/-- For every number of engine steps, the first and the largest included. -/
theorem witness_EveryAcceptedCommandCompletes :
    ∃ s : Nat → State, ∀ n, (s n).busy = true ∧ (s n).remaining = n + 1 ∧ HostAction.reset ∉ (s n).hostQueue :=
  ⟨fun n => flying 0x00000002#32 (n + 1)
      { State.reset with hostQueue := [.write 0x08#8 .word 0xF#4 0x2#32, .read 0x08#8 .word, .idle] },
    fun _ => ⟨rfl, rfl, by simp [flying]⟩⟩

theorem witness_ResetGivesEveryRegisterItsResetValue :
    ∃ s : State, s.hostQueue = .reset :: [.idle] ∧ s.busy = true :=
  ⟨flying 0x00000002#32 1 { State.reset with hostQueue := [.reset, .idle] }, by decide⟩

theorem witness_EngineTickChangesNothingVisible :
    ∃ s t : State, (s.busy = true ∧ 1 < s.remaining ∧ s.hostQueue = []) ∧ t.busy = false ∧ t.hostQueue = [] :=
  ⟨flying 0x00000007#32 2 State.reset, State.reset, by decide⟩

theorem witness_InputsAreStableWhileBusy :
    ∃ s : State, s.busy = true ∧ 1 < s.remaining ∧ s.hostQueue.head? ≠ some .reset :=
  ⟨flying 0x00000002#32 2 (facing (.write 0x40#8 .word 0xF#4 0#32)), by decide⟩

theorem witness_IllegalAccessChangesNothing :
    (0x42#8).toNat % 4 ≠ 0 ∧ BusWidth.half ≠ .word ∧ (0x7#4) ≠ 0xF#4 ∧ (0xFC#8).toNat % 4 = 0 := by decide

theorem witness_WritesWhileBusyAreDropped :
    (flying 0x00000007#32 2 State.reset).busy = true ∧
    ((0x00#8).toNat % 4 = 0 ∧ (0x00#8) ≠ 0x04#8 ∧ (0x00#8) ≠ 0x08#8) ∧
    ((0xFC#8).toNat % 4 = 0 ∧ (0xFC#8) ≠ 0x04#8 ∧ (0xFC#8) ≠ 0x08#8) ∧
    (0x04#8).toNat % 4 = 0 ∧ (0x08#8).toNat % 4 = 0 := by decide

theorem witness_StatusWriteClearsOnlyItsW1cBits : State.reset.busy = false := by decide

theorem witness_RwRegisterReadsBackItsImplementedBits :
    State.reset.busy = false ∧ (Reg.ctrl, (0x1#32 : Word)) ∈ rwRegs ∧ (Reg.cbIdx, (0xFFFF#32 : Word)) ∈ rwRegs ∧
      (rwWritten 0xFFFF1FE5#32 State.reset).map Prod.fst = rwRegs.map Prod.fst ∧
      (7#4).toNat < 8 ∧ 8 ≤ (8#4).toNat := by
  decide

theorem witness_RegisterWriteLeavesTheOthers :
    State.reset.busy = false ∧ (Reg.sboxLo, (0xFFFFFFFF#32 : Word)) ∈ rwRegs ∧ Reg.cbLoadStat ≠ .sboxLo ∧
      Reg.cbLoadStat ∉ alsoChangedBy .sboxLo := by decide

theorem witness_SboxWriteClearsLatValid :
    State.reset.busy = false ∧ ((0x20#8) = 0x20#8 ∨ (0x20#8) = 0x24#8) ∧ ((0x24#8) = 0x20#8 ∨ (0x24#8) = 0x24#8) := by
  decide

theorem witness_ReadOnlyRegistersIgnoreWrites :
    Reg.id ∈ roRegs ∧ Reg.cbLoadStat ∈ roRegs ∧ State.reset.busy = false ∧
      (flying 0x00000007#32 2 State.reset).busy = true := by decide

theorem witness_ReservedOffsetsReadZeroAndIgnoreWrites :
    ((0x18#8).toNat % 4 = 0 ∧ (0x18#8) ∉ tableOffsets) ∧ ((0xFC#8).toNat % 4 = 0 ∧ (0xFC#8) ∉ tableOffsets) ∧
      State.reset.busy = false ∧ (flying 0x00000007#32 2 State.reset).busy = true := by decide

theorem witness_ReadsHaveNoSideEffect : State.reset.busy = false := by decide

theorem witness_BusyReadsOfTheWriteSet :
    ∃ s t : State, (s.busy = true ∧ decode s.cmdPending = .ok .genCodebook) ∧
      Reg.cbData ∈ writeSetRegs .genCodebook ∧
      (Reg.k1 ∉ writeSetRegs .genCodebook ∧ Reg.k1 ≠ .status) ∧
      t.busy = true ∧ decode t.cmdPending = .error .unassignedOpcode :=
  ⟨flying 0x00000002#32 1 State.reset, flying 0x00000000#32 1 State.reset, by decide⟩

theorem witness_DataPortsReadTheSelectedEntry :
    ∃ s : State, s.busy = false ∧ (s.cand.get 0xFF#8).inuse = true ∧ (s.cand.get 0x00#8).inuse = false :=
  ⟨{ State.reset with cand := Ram.tabulate 8 fun v => ⟨1#17, v.msb, false⟩ }, by decide⟩

/-- Every clause is met while idle, and while a command is in flight that writes neither the register nor the bit of STATUS: BUILD_LAT,
the last with CB_VALID read as it stands, and bit 31 of STATUS. -/
theorem witness_ErrReadsItsFields :
    (∀ r, ReadsCurrent State.reset r) ∧ (∀ b, StatusBitReadsCurrent State.reset b) ∧
    (∀ r ∈ [Reg.encResult, .atkStatus, .atkWinner, .atkBest, .atkBestDev, .cbLoadStat],
      ReadsCurrent (flying 0x00000003#32 2 State.reset) r) ∧
    ∀ b ∈ [0, 1, 2, 4, 5, 6, 31], StatusBitReadsCurrent (flying 0x00000003#32 2 State.reset) b := by
  have idle : State.reset.busy ≠ true := by decide
  refine ⟨fun _ h => absurd h idle, fun _ h => absurd h idle, fun r hr _ i hi => ?_, fun b hb _ i hi => ?_⟩
  all_goals
    obtain rfl : Instr.buildLat = i := by
      have : decode 0x00000003#32 = .ok .buildLat := by decide
      exact Except.ok.inj (this.symm.trans hi)
  · revert r; decide
  · revert b; decide

theorem witness_HostAddressesReachTheirOffsets :
    Config.spnBase + 256 < Config.spnBase ∨ Config.spnBase + 256 ≤ Config.spnBase + 256 := .inr (le_refl _)

/-- ATTACK_STEP without a codebook: the fatal error that R263 speaks of. -/
theorem witness_FatalErrorsArePrecise :
    ∃ t, exec (.attackStep 0#4 false) State.reset = .next t ∧ fatalOutcome t.err.code t.err.sub = true := by
  obtain ⟨t, ht⟩ := exec_answers_next (.attackStep 0#4 false) State.reset
  have h : (landing (exec (.attackStep 0#4 false) State.reset)).map
    (fun t => fatalOutcome t.err.code t.err.sub) = some true := by decide
  rw [ht] at h
  exact ⟨t, ht, by simpa [landing] using h⟩

theorem witness_CommandsLeaveTheHostsRegisters : ∃ t, exec .cbLoadBegin State.reset = .next t := ⟨_, rfl⟩

theorem witness_IrqFollowsDoneAndItsEnable :
    (∃ t, exec .cbLoadBegin State.reset = .next t) ∧
    (∃ t, completion (flying 0x00000004#32 1 State.reset) = .next t) ∧
    (0x2#32 : Word).getLsbD 1 = true ∧ State.reset.busy = false ∧
    { State.reset with done := true }.done = true ∧ (0x1#32 : Word).getLsbD 0 = true ∧
    (0x0#32 : Word).getLsbD 0 = false :=
  ⟨⟨_, rfl⟩, ⟨_, rfl⟩, by decide⟩

/-- From a state of the tests, the next state and what differs in it. -/
theorem differs {α : Type} {s : State} (f : State → α) (v : α) (h : (landing (step s)).map f = some v) (hv : v ≠ f s) :
    ∃ t, step s = .next t ∧ f t ≠ f s := by
  cases hs : step s with
  | next t => rw [hs] at h; exact ⟨t, rfl, by simpa [landing] using (Option.some.inj h) ▸ hv⟩
  | fault f => rw [hs] at h; simp [landing] at h
  | refused r => rw [hs] at h; simp [landing] at h

theorem witness_ErrChangesOnlyAtCompletion : ∃ s t : State, step s = .next t ∧ t.err ≠ s.err := by
  refine ⟨flying 0x00000008#32 1 State.reset, differs (·.err) ⟨.illegalCommand, 1#4, 8#16, 8#8⟩ ?_ ?_⟩ <;> decide

/-- The reset state with arrays of known contents. -/
def blank : State :=
  { State.reset with
    cb := Ram.tabulate 16 fun _ => 0#16
    lat := Ram.tabulate 8 fun _ => 0#5
    cand := Ram.tabulate 8 fun _ => ⟨0#17, false, false⟩ }

/-- An ATTACK_STEP of one target nibble at its completion, every array blank. -/
def scoring : State := flying 0x00000106#32 1 { blank with cbValid := true }

/-- The first candidate's entry, empty before, is in use after the step. -/
theorem scoring_changes_cand :
    ∃ t, step scoring = .next t ∧ scoring.hostQueue.head? ≠ some .reset ∧ t.cand ≠ scoring.cand := by
  have ready : AttackReady scoring 0b0001#4 := checkAttack_eq_none_iff.1 (by decide)
  have runs : completion scoring = exec (.attackStep 0b0001#4 false) scoring := by
    unfold completion
    rw [show decode scoring.cmdPending = .ok (.attackStep 0b0001#4 false) by decide]
  refine ⟨decideStep 0b0001#4 false (allCounts scoring 0b0001#4) scoring, ?_, by decide, fun h => ?_⟩
  · rw [step_of_due rfl (le_refl 1) (by decide), runs, exec_attackStep_of_ready false ready]
  · rw [(decideStep_results _ _ _ _).1] at h
    have after := candTable_get scoring.atkThresh (allCounts scoring 0b0001#4) 0#8
    rw [h, show (0#8).toNat = 0 from rfl, allCounts_getElem? (by decide)] at after
    have before : scoring.cand.get 0#8 = ⟨0#17, false, false⟩ := Ram.get_tabulate _ _
    simp [before] at after

theorem witness_ArraysChangeOnlyByTheirWriters :
    (∃ s t : State, step s = .next t ∧ s.hostQueue.head? ≠ some .reset ∧ t.cand ≠ s.cand) ∧
    (∃ s t : State, step s = .next t ∧ s.hostQueue.head? ≠ some .reset ∧ t.lat ≠ s.lat) ∧
    (∃ s t : State, step s = .next t ∧ s.hostQueue.head? ≠ some .reset ∧ t.cb ≠ s.cb ∧ s.busy = true) ∧
    (∃ s t : State, step s = .next t ∧ s.hostQueue.head? ≠ some .reset ∧ t.cb ≠ s.cb ∧ s.busy = false) := by
  refine ⟨⟨scoring, scoring_changes_cand⟩, ⟨flying 0x00000003#32 1 blank, ?_⟩, ⟨flying 0x00000002#32 1 blank, ?_⟩,
    ⟨{ blank with cbLoading := true, hostQueue := [.write 0xB8#8 .word 0xF#4 0x00000001#32] }, ?_⟩⟩
  · obtain ⟨t, ht, hd⟩ := differs (s := flying 0x00000003#32 1 blank) (fun s => s.lat.get 0x00#8) 8#5
      (by decide +kernel) (by decide +kernel)
    exact ⟨t, ht, by decide, fun h => hd (by rw [h])⟩
  · obtain ⟨t, ht, hd⟩ := differs (s := flying 0x00000002#32 1 blank) (fun s => s.cb.get 0x0000#16) 0x28E7#16
      (by decide +kernel) (by decide +kernel)
    exact ⟨t, ht, by decide, fun h => hd (by rw [h]), rfl⟩
  · obtain ⟨t, ht, hd⟩ :=
      differs (s := { blank with cbLoading := true, hostQueue := [.write 0xB8#8 .word 0xF#4 0x00000001#32] })
      (fun s => s.cb.get 0x0000#16) 1#16 (by decide +kernel) (by decide +kernel)
    exact ⟨t, ht, by decide, fun h => hd (by rw [h]), rfl⟩

theorem witness_CodebookValidityChangesOnlyByItsCommands :
    (∃ s t : State, step s = .next t ∧ s.hostQueue.head? ≠ some .reset ∧ t.cbValid ≠ s.cbValid ∧ s.cbValid = false) ∧
    (∃ s t : State, step s = .next t ∧ s.hostQueue.head? ≠ some .reset ∧ t.cbValid ≠ s.cbValid ∧ s.cbValid = true) := by
  refine ⟨⟨flying 0x00000005#32 1 { State.reset with cbLoading := true, loadCount := 65536#17 }, ?_⟩,
    ⟨flying 0x00000004#32 1 { State.reset with cbValid := true }, ?_⟩⟩
  · obtain ⟨t, ht, hd⟩ :=
      differs (s := flying 0x00000005#32 1 { State.reset with cbLoading := true, loadCount := 65536#17 })
      (·.cbValid) true (by decide) (by decide)
    exact ⟨t, ht, by decide, hd, rfl⟩
  · obtain ⟨t, ht, hd⟩ := differs (s := flying 0x00000004#32 1 { State.reset with cbValid := true })
      (·.cbValid) false (by decide) (by decide)
    exact ⟨t, ht, by decide, hd, rfl⟩

/-- The reset configuration passes the checks (V4.1). -/
theorem resetConfig_valid : CipherValid resetConfig := checkCipher_eq_none_iff.1 (by decide)

theorem witness_EveryStepKeepsTheInvariant :
    ∃ s t : State, Invariant s ∧ step s = .next t := by
  refine ⟨State.reset, hostTurn State.reset, ?_, step_of_not_due (by decide)⟩
  constructor <;> simp [State.reset, State.resetWith, AttackConsistent, resetErr, listedOutcome, resetAtkStatus]

/-- V4's four faults, one for each clause. -/
theorem witness_CipherCommandsReportTheFirstFailingCheck :
    LeastMissing (with0x 0x20#8 0x9AB83C44#32).cfg.sbox 0#4 ∧
    ((with0x 0x28#8 0xBCD03AFF#32).cfg.sbox.Bijective ∧ LeastMissing (with0x 0x28#8 0xBCD03AFF#32).cfg.sboxi 1#4) ∧
    ((with0x 0x28#8 0xBCD03A1F#32).cfg.sbox.Bijective ∧ (with0x 0x28#8 0xBCD03A1F#32).cfg.sboxi.Bijective ∧
      (with0x 0x28#8 0xBCD03A1F#32).cfg.sboxi.entry ((with0x 0x28#8 0xBCD03A1F#32).cfg.sbox.entry 1#4) ≠ 1#4 ∧
      ∀ z : Nibble, z.toNat < (1#4).toNat →
        (with0x 0x28#8 0xBCD03A1F#32).cfg.sboxi.entry ((with0x 0x28#8 0xBCD03A1F#32).cfg.sbox.entry z) = z) ∧
    (SboxPair (with0x 0x30#8 0xD951C800#32).cfg ∧ LeastMissing (with0x 0x30#8 0xD951C800#32).cfg.pbox 4#4) ∧
    SboxPair resetConfig :=
  ⟨missingEntry_eq_some_iff.1 (by decide),
    ⟨missingEntry_eq_none_iff.1 (by decide), missingEntry_eq_some_iff.1 (by decide)⟩,
    ⟨missingEntry_eq_none_iff.1 (by decide), missingEntry_eq_none_iff.1 (by decide),
      inverseMismatch_eq_some_iff.1 (by decide)⟩,
    ⟨checkSbox_eq_none_iff.1 (by decide), missingEntry_eq_some_iff.1 (by decide)⟩,
    resetConfig_valid.1⟩

theorem witness_ValidateOfAValidConfiguration : CipherValid State.reset.cfg := resetConfig_valid

theorem witness_EncryptComputesTheFourRounds : CipherValid State.reset.cfg := resetConfig_valid

theorem witness_GenCodebookEncryptsEveryPlaintext : CipherValid State.reset.cfg := resetConfig_valid

theorem witness_GeneratedCodebookIsABijection :
    ∃ t, CipherValid State.reset.cfg ∧ exec .genCodebook State.reset = .next t :=
  let ⟨t, ht⟩ := exec_answers_next .genCodebook State.reset
  ⟨t, resetConfig_valid, ht⟩

theorem witness_PermutationAndItsInverse : resetConfig.pbox.Bijective := resetConfig_valid.2

theorem witness_PartialDecryptionUnderTheTrueKeyIsU4 :
    ∃ s : State, SboxPair s.cfg ∧ ∀ q, s.cb.get q = encryptBlock s.cfg q :=
  ⟨{ State.reset with cb := Ram.tabulate 16 (encryptBlock resetConfig) }, resetConfig_valid.1,
    fun q => Ram.get_tabulate _ q⟩

theorem witness_BuildLatStoresTheTable : State.reset.cfg.sbox.Bijective := resetConfig_valid.1.1

theorem witness_BuildLatReportsAnInvalidSbox : LeastMissing (with0x 0x20#8 0x9AB83C44#32).cfg.sbox 0#4 :=
  missingEntry_eq_some_iff.1 (by decide)

theorem witness_LatRangeAndMargins : resetConfig.sbox.Bijective ∧ (15#4) ≠ 0#4 ∧ (1#4) ≠ 0#4 :=
  ⟨resetConfig_valid.1.1, by decide⟩

/-- A valid codebook under the reset configuration, the relation and threshold given, nothing known. -/
def attackable (pmask umask thresh : Block) : State :=
  { State.reset with cbValid := true, atkPmask := pmask, atkUmask := umask, atkThresh := thresh }

theorem attackable_ready (pmask thresh : Block) {umask : Block} {tgt : Nibble}
    (h : checkAttack (attackable pmask umask thresh) tgt = none) : AttackReady (attackable pmask umask thresh) tgt :=
  checkAttack_eq_none_iff.1 h

/-- V7.8's refused steps, one for each clause. -/
theorem witness_AttackStepReportsTheFirstFailingCheck :
    LeastMissing (with0x 0x20#8 0x9AB83C44#32).cfg.sbox 0#4 ∧
    ((with0x 0x28#8 0xBCD03AFF#32).cfg.sbox.Bijective ∧ LeastMissing (with0x 0x28#8 0xBCD03AFF#32).cfg.sboxi 1#4) ∧
    ((with0x 0x28#8 0xBCD03A1F#32).cfg.sbox.Bijective ∧ (with0x 0x28#8 0xBCD03A1F#32).cfg.sboxi.Bijective ∧
      (with0x 0x28#8 0xBCD03A1F#32).cfg.sboxi.entry ((with0x 0x28#8 0xBCD03A1F#32).cfg.sbox.entry 1#4) ≠ 1#4) ∧
    (SboxPair State.reset.cfg ∧ State.reset.cbValid = false) ∧
    (SboxPair (attackable 0#16 0#16 0#16).cfg ∧ (attackable 0#16 0#16 0#16).cbValid = true ∧
      2 < popcount (0b1110#4)) ∧
    (SboxPair (attackable 0x1000#16 0x0440#16 0#16).cfg ∧ (attackable 0x1000#16 0x0440#16 0#16).cbValid = true ∧
      2#4 ≠ 0#4 ∧ popcount (2#4) ≤ 2 ∧ ¬ NibbleReadable (attackable 0x1000#16 0x0440#16 0#16) 2#4 1 ∧
      NibbleReadable (attackable 0x1000#16 0x0440#16 0#16) 2#4 0) :=
  ⟨missingEntry_eq_some_iff.1 (by decide),
    ⟨missingEntry_eq_none_iff.1 (by decide), missingEntry_eq_some_iff.1 (by decide)⟩,
    ⟨missingEntry_eq_none_iff.1 (by decide), missingEntry_eq_none_iff.1 (by decide), by decide⟩,
    ⟨resetConfig_valid.1, by decide⟩, ⟨resetConfig_valid.1, by decide⟩,
    ⟨resetConfig_valid.1, by unfold NibbleReadable; decide⟩⟩

theorem witness_AttackStepWritesEveryCandidate :
    AttackReady (attackable 0x8000#16 0x4400#16 3900#16) 0b1100#4 ∧
    (IsCandidate 0b1100#4 0xFF#8 ∧ IsCandidate 0b0001#4 0x0F#8 ∧ ¬ IsCandidate 0b0001#4 0x10#8) :=
  ⟨attackable_ready _ _ (by decide), by unfold IsCandidate; decide⟩

theorem witness_AttackStepReportsTheBestCandidate :
    AttackReady (attackable 0x8000#16 0x4400#16 3900#16) 0b1100#4 ∧ IsCandidate 0b1100#4 0x00#8 :=
  ⟨attackable_ready _ _ (by decide), by unfold IsCandidate; decide⟩

theorem witness_TrialKeyPlacesTheCandidate :
    ((0b1100#4).getLsbD (3 - 3) = false) ∧
    ((0b0001#4).getLsbD (3 - 3) = true ∧ popcount (0b0001#4) = 1) ∧
    ((0b1001#4).getLsbD (3 - 0) = true ∧ popcount (0b1001#4) = 2 ∧ (0b1001#4).getLsbD (3 - 3) = true) := by decide

theorem witness_DegenerateRelationsAndThresholds :
    ((attackable 0#16 0#16 0#16).atkUmask = 0#16 ∧ (attackable 0#16 0#16 0#16).atkPmask = 0#16) ∧
    ((attackable 0x8000#16 0#16 0#16).atkUmask = 0#16 ∧ (attackable 0x8000#16 0#16 0#16).atkPmask ≠ 0#16) ∧
    AttackReady (attackable 0x8000#16 0x4400#16 0x8000#16) 0b1100#4 ∧
    32768 ≤ (attackable 0x8000#16 0x4400#16 0x8000#16).atkThresh.toNat :=
  ⟨by decide, by decide, attackable_ready _ _ (by decide), by decide⟩

/-- With nothing known, any two values of KNOWN_VAL agree in the known nibbles. -/
theorem witness_UnknownKeyBitsNeverAffectTheAttack :
    AttackReady (attackable 0x8000#16 0x4400#16 3900#16) 0b1100#4 ∧
    ∀ j < 4, nib (attackable 0x8000#16 0x4400#16 3900#16).knownMask j = 0xF#4 →
      nib 0xFFFF#16 j = nib (attackable 0x8000#16 0x4400#16 3900#16).knownVal j :=
  ⟨attackable_ready _ _ (by decide), by decide⟩

theorem witness_AttackNeverReadsKeysPboxOrLat :
    ∃ (c : CipherConfig) (t : State), c ≠ resetConfig ∧ c.sbox = State.reset.cfg.sbox ∧
      c.sboxi = State.reset.cfg.sboxi ∧
      exec (.attackStep 0b1100#4 true) (attackable 0x8000#16 0x4400#16 3900#16) = .next t :=
  let ⟨t, ht⟩ := exec_answers_next (.attackStep 0b1100#4 true) (attackable 0x8000#16 0x4400#16 3900#16)
  ⟨{ resetConfig with k1 := 0#16 }, t, by decide, rfl, rfl, ht⟩

/-- A load at work: `n` records taken, the faults as given. -/
def loading (n : BitVec 17) (ovf ord : Bool) : State :=
  { State.reset with cbLoading := true, loadCount := n, loadOvf := ovf, loadOrd := ord }

theorem witness_RecordWriteLoadsOneEntry :
    (flying 0x00000007#32 2 State.reset).busy = true ∧
    (State.reset.busy = false ∧ State.reset.cbLoading = false) ∧
    ((loading 65536#17 false false).busy = false ∧ (loading 65536#17 false false).cbLoading = true ∧
      (loading 65536#17 false false).loadOvf = false ∧ (loading 65536#17 false false).loadOrd = false ∧
      (loading 65536#17 false false).loadCount.toNat = 65536) ∧
    ((loading 65535#17 false false).loadCount.toNat ≠ 65536 ∧
      (0xFFFE#16).toNat ≠ (loading 65535#17 false false).loadCount.toNat) ∧
    (0xFFFF#16).toNat = (loading 65535#17 false false).loadCount.toNat := by decide

theorem witness_CbLoadEndJudgesTheLoad :
    State.reset.cbLoading = false ∧
    ((loading 65536#17 true false).cbLoading = true ∧ (loading 65536#17 true false).loadOvf = true) ∧
    ((loading 2#17 false true).cbLoading = true ∧ (loading 2#17 false true).loadOvf = false ∧
      (loading 2#17 false true).loadOrd = true) ∧
    ((loading 65535#17 false false).cbLoading = true ∧ (loading 65535#17 false false).loadOvf = false ∧
      (loading 65535#17 false false).loadOrd = false ∧ (loading 65535#17 false false).loadCount.toNat < 65536) ∧
    (loading 65536#17 false false).cbLoading = true ∧ (loading 65536#17 false false).loadOvf = false ∧
      (loading 65536#17 false false).loadOrd = false ∧ 65536 ≤ (loading 65536#17 false false).loadCount.toNat := by
  decide

theorem witness_LoadOfInOrderRecords :
    (loading 0#17 false false).busy = false ∧ (loading 0#17 false false).cbLoading = true ∧
    (loading 0#17 false false).loadCount = 0#17 ∧ (loading 0#17 false false).loadOvf = false ∧
    (loading 0#17 false false).loadOrd = false ∧ 65535 < 65536 := by decide

/-- A codebook whose lowest nibble is the S-box of the plaintext's: under the trial key 0 the relation of bit 3 always holds. -/
def transparent : State :=
  { attackable 0x0008#16 0x0008#16 32767#16 with
    cb := Ram.tabulate 16 fun p => (resetConfig.sbox.entry (p.extractLsb' 0 4)).setWidth 16 }

theorem countP_periodic (g : Nat → Bool) (n : Nat) :
    (List.range (n * 16)).countP (fun p => g (p % 16)) = n * (List.range 16).countP g := by
  induction n with
  | zero => simp
  | succ n ih =>
    rw [Nat.succ_mul, List.range_add, List.countP_append, ih, List.countP_map, Nat.succ_mul]
    congr 1
    apply List.countP_congr
    intro x hx
    have : x < 16 := List.mem_range.1 hx
    simp [Nat.mul_add_mod_self_right, Nat.mod_eq_of_lt this]

/-- The relation of `transparent` reads the plaintext's lowest nibble only. -/
theorem transparent_relation (key : Block) (p : Nat) :
    relation transparent key (BitVec.ofNat 16 p) = relation transparent key (BitVec.ofNat 16 (p % 16)) := by
  have hbit : BitVec.ofNat 16 p &&& 0x0008#16 = BitVec.ofNat 16 (p % 16) &&& 0x0008#16 := by
    apply BitVec.eq_of_getLsbD_eq
    intro k hk
    have h8 : ∀ k < 16, (0x0008#16).getLsbD k = decide (k = 3) := by decide
    rw [BitVec.getLsbD_and, BitVec.getLsbD_and, h8 k hk]
    by_cases h : k = 3
    · subst h
      simp only [BitVec.getLsbD_ofNat, show (16 : Nat) = 2 ^ 4 by norm_num, Nat.testBit_mod_two_pow]
      simp
    · simp [h]
  have hnib : (BitVec.ofNat 16 p).extractLsb' 0 4 = (BitVec.ofNat 16 (p % 16)).extractLsb' 0 4 := by
    apply BitVec.eq_of_toNat_eq
    simp
  have hcb : transparent.cb.get (BitVec.ofNat 16 p) = transparent.cb.get (BitVec.ofNat 16 (p % 16)) := by
    simp only [transparent, Ram.get_tabulate, hnib]
  simp only [relation, partialDecrypt, hcb]
  rw [show transparent.atkPmask = 0x0008#16 from rfl, hbit]

theorem transparent_counts :
    allCounts transparent 0b0001#4 =
      (List.range 16).map fun v => 4096 * (List.range 16).countP fun x =>
        !relation transparent (trialKey 0#16 0b0001#4 (BitVec.ofNat 8 v)) (BitVec.ofNat 16 x) := by
  unfold allCounts agreementCount agreementsUnder
  rw [show candidateCount 0b0001#4 = 16 by decide]
  apply List.map_congr_left
  intro v _
  rw [show Config.samples = 4096 * 16 by rfl, ← countP_periodic]
  apply List.countP_congr
  intro p _
  rw [transparent_relation]
  rfl

/-- Only the true nibble 0 survives. -/
theorem transparent_unique : survivorCount transparent.atkThresh (allCounts transparent 0b0001#4) = 1 := by
  rw [transparent_counts]
  decide +kernel

/-- One candidate survives in `transparent`; none at threshold 32768; all sixteen for the relation of no bits at threshold 0. -/
theorem witness_AttackStepDecidesBySurvivors :
    (∃ s t, AttackReady s 0b0001#4 ∧ exec (.attackStep 0b0001#4 true) s = .next t ∧ passCount t.cand = 1) ∧
    (∃ s t, AttackReady s 0b0001#4 ∧ exec (.attackStep 0b0001#4 true) s = .next t ∧ passCount t.cand = 0) ∧
    (∃ s t, AttackReady s 0b0001#4 ∧ exec (.attackStep 0b0001#4 true) s = .next t ∧ 2 ≤ passCount t.cand) := by
  have run : ∀ s : State, checkAttack s 0b0001#4 = none → ∃ t, AttackReady s 0b0001#4 ∧
      exec (.attackStep 0b0001#4 true) s = .next t ∧
      passCount t.cand = survivorCount s.atkThresh (allCounts s 0b0001#4) := by
    intro s h
    have hr := checkAttack_eq_none_iff.1 h
    refine ⟨_, hr, exec_attackStep_of_ready true hr, ?_⟩
    rw [(decideStep_results _ _ _ _).1, passCount_candTable _ _ (allCounts_length_le hr.atMostTwo)]
  refine ⟨⟨transparent, ?_⟩, ⟨attackable 0x8000#16 0x0004#16 0x8000#16, ?_⟩, ⟨attackable 0#16 0#16 0#16, ?_⟩⟩
  · obtain ⟨t, h1, h2, h3⟩ := run transparent (by decide)
    exact ⟨t, h1, h2, by rw [h3, transparent_unique]⟩
  · obtain ⟨t, h1, h2, h3⟩ := run (attackable 0x8000#16 0x0004#16 0x8000#16) (by decide)
    refine ⟨t, h1, h2, ?_⟩
    rw [h3, survivorCount, List.countP_eq_zero]
    intro c hc
    obtain ⟨v, -, rfl⟩ := List.mem_map.1 hc
    have := agreementCount_le (attackable 0x8000#16 0x0004#16 0x8000#16) 0b0001#4 (BitVec.ofNat 8 v)
    rw [passes_iff, show (attackable 0x8000#16 0x0004#16 0x8000#16).atkThresh.toNat = 32768 by decide]
    generalize agreementCount (attackable 0x8000#16 0x0004#16 0x8000#16) 0b0001#4 (BitVec.ofNat 8 v) = n at this
    unfold deviation Config.half
    omega
  · obtain ⟨t, h1, h2, h3⟩ := run (attackable 0#16 0#16 0#16) (by decide)
    refine ⟨t, h1, h2, ?_⟩
    have hall : ∀ c ∈ allCounts (attackable 0#16 0#16 0#16) 0b0001#4, passes 0#16 c = true := by
      intro c hc
      obtain ⟨v, -, rfl⟩ := List.mem_map.1 hc
      have : agreementCount (attackable 0#16 0#16 0#16) 0b0001#4 (BitVec.ofNat 8 v) = 65536 := by
        unfold agreementCount agreementsUnder
        rw [List.countP_eq_length.2]
        · simp [Config.samples]
        · intro p _; simp [relation, attackable]
      rw [this]
      decide
    rw [h3, survivorCount, List.countP_eq_length.2 (by simpa [attackable] using hall), allCounts, List.length_map,
      List.length_range]
    decide

/-- The unique survivor of `transparent` is folded when FOLD = 1, and not when FOLD = 0. -/
theorem witness_AttackStepFoldsOnlyAUniqueWinner :
    AttackReady transparent 0b0001#4 ∧
    (decideStep 0b0001#4 true (allCounts transparent 0b0001#4) transparent).atkStatus.folded = true ∧
    (decideStep 0b0001#4 false (allCounts transparent 0b0001#4) transparent).atkStatus.folded = false := by
  refine ⟨checkAttack_eq_none_iff.1 (by decide), ?_, ?_⟩
  · rw [(decideStep_results _ _ _ _).2.2.2.2.1, transparent_unique]; rfl
  · rw [(decideStep_results _ _ _ _).2.2.2.2.1]; rfl

end Sys2Proof.Tests
end

section
/-! PROOFS. The scope's statements (spec/00_scope.md): a fatal error is precise (R263), and a host address reaches its offset in the
window (R71, R72). -/

namespace Sys2Proof.Machine

/-- The completion leaves in ERR the code and the sub-cause it reports, so whether it is fatal can be read there. -/
theorem fatalOutcome_complete (r : Report) (s : State) :
    fatalOutcome (complete r s).err.code (complete r s).err.sub = fatalOutcome r.code r.sub := rfl

/-- A command whose ERR holds a fatal outcome ended in a fatal error raised from the state at its entry (R260, R263). -/
theorem exec_fatal_eq_complete {i : Instr} {s t : State} (h : exec i s = .next t)
    (hf : fatalOutcome t.err.code t.err.sub = true) : ∃ r, t = complete r s := by
  obtain ⟨r, -, -, hr⟩ | ⟨r, u, hnot, -, hr, -⟩ := exec_cases i s
  · exact ⟨r, Host.Outcome.next.inj (h.symm.trans hr)⟩
  · obtain rfl : t = complete r u := Host.Outcome.next.inj (h.symm.trans hr)
    rw [fatalOutcome_complete, hnot] at hf
    cases hf

/-- Settles O30: only the fatal case of `exec_cases` leaves a fatal outcome in ERR, and it completes the entry state itself. -/
theorem fatalErrorsArePrecise : Obligations.FatalErrorsArePrecise := by
  intro i s t h hf
  obtain ⟨r, rfl⟩ := exec_fatal_eq_complete h hf
  exact complete_eq_endedWith r.code r.sub r.info s

/-- SPN_BASE is a multiple of 256 (R72). -/
theorem spnBase_mod : Config.spnBase % 256 = 0 := Nat.mul_mod_right 256 Config.windowPage

/-- Each of the window's 256 addresses reaches its offset (R72). -/
theorem windowOffset_base_add (off : BitVec 8) : windowOffset (Config.spnBase + off.toNat) = some off := by
  have hlt : off.toNat < 256 := off.isLt
  simp [windowOffset, hlt]

/-- An address below or above the window reaches no offset (R72; log 7). -/
theorem windowOffset_outside {address : Nat}
    (h : address < Config.spnBase ∨ Config.spnBase + 256 ≤ address) : windowOffset address = none := by
  have hout : ¬ (Config.spnBase ≤ address ∧ address < Config.spnBase + 256) := by omega
  simp [windowOffset, hout]

/-- Settles O28, from the offset each address inside and outside the window reaches. -/
theorem hostAddressesReachTheirOffsets : Obligations.HostAddressesReachTheirOffsets := by
  refine ⟨spnBase_mod, fun off => ⟨?_, fun v => ?_⟩, fun address h => ⟨?_, fun v => ?_⟩⟩
  · simp [memRead, windowOffset_base_add]
  · simp [memWrite, windowOffset_base_add]
  · simp [memRead, windowOffset_outside h]
  · simp [memWrite, windowOffset_outside h]

end Sys2Proof.Machine
end

section
/-! PROOFS. When a read is the register's current value, and what the bits of the window's words are (spec/10_state.md R20 to R51,
R79, R107). -/

namespace Sys2Proof.Machine

open Sys2Proof.Spec

/-- The bits of a register that read as drawn: none, or those of the write set of the command in flight (R79, R107). -/
theorem anyBits_cases (s : State) (r : Reg) :
    anyBits s r = 0#32 ∨
      ∃ i, s.busy = true ∧ decode s.cmdPending = .ok i ∧ anyBits s r = writeSetMask i r := by
  cases hb : s.busy with
  | false => exact .inl (anyBits_idle hb r)
  | true =>
    cases hd : decode s.cmdPending with
    | ok i => exact .inr ⟨i, rfl, rfl, by simp [anyBits, inFlight_busy hb hd]⟩
    | error e => exact .inl (by simp [anyBits, inFlight_illegal hd])

/-- The write set of a command (R107): every bit of the registers it lists, single bits of STATUS, nothing else. -/
theorem writeSetMask_eq (i : Instr) (r : Reg) :
    writeSetMask i r =
      if r ∈ writeSetRegs i then 0xFFFFFFFF#32 else if r = .status then writeSetStatusBits i else 0#32 := by
  cases i <;> cases r <;> rfl

/-- A register outside the write set in flight reads its current value (R77, R79). -/
theorem readWindow_current {s : State} {r : Reg} (h : ReadsCurrent s r) (hs : r ≠ .status) :
    readWindow r.offset s = r.value s := by
  refine readWindow_reg ?_
  obtain h0 | ⟨i, hb, hd, hi⟩ := anyBits_cases s r
  · exact h0
  · rw [hi, writeSetMask_eq, if_neg (h hb i hd), if_neg hs]

/-- No command has these registers in its write set (R107). -/
theorem readsCurrent_unlisted (s : State) : ∀ r ∈ [Reg.id, .err, .cmd, .cbLoad], ReadsCurrent s r := by
  intro r hr _ i _
  revert r
  cases i <;> simp [writeSetRegs]

/-- A bit of STATUS outside the write set in flight reads its current value (R23, R79). -/
theorem readWindow_status_current {s : State} {b : Nat} (h : StatusBitReadsCurrent s b) :
    (readWindow 0x08#8 s).getLsbD b = (statusWord s).getLsbD b := by
  refine getLsbD_readWindow (r := .status) ?_
  obtain h0 | ⟨i, hb, hd, hi⟩ := anyBits_cases s .status
  · simp [h0]
  · have hstatus : writeSetMask i .status = writeSetStatusBits i := by cases i <;> rfl
    rw [hi, hstatus, h hb i hd]

/-- Bit `k` of STATUS is its field, and 0 above the fields (R23, R51). -/
theorem statusWord_field (s : State) (k : Nat) : (statusWord s).getLsbD k = statusField s k := by
  by_cases hk : k < 32
  · rw [getLsbD_statusWord s hk]
    match k with
    | 0 | 1 | 2 | 3 | 4 | 5 => simp [statusField]
    | k + 6 => simp [statusField]
  · obtain ⟨j, rfl⟩ : ∃ j, k = j + 6 := ⟨k - 6, by omega⟩
    exact BitVec.getLsbD_of_ge _ _ (Nat.not_lt.1 hk)

/-- Clearing fields of STATUS clears their bits (R23). -/
theorem statusWord_clear {s t : State} {m : Word}
    (h : ∀ k, statusField t k = (statusField s k && !m.getLsbD k)) : statusWord t = statusWord s &&& ~~~m := by
  apply BitVec.eq_of_getLsbD_eq
  intro k hk
  rw [BitVec.getLsbD_and, BitVec.getLsbD_not, statusWord_field, statusWord_field, h, decide_eq_true hk, Bool.true_and]

/-- A narrow register in its low bits of the word. -/
theorem setWidth_word_low {n : Nat} (x : BitVec n) (hn : n ≤ 32) : (x.setWidth 32).extractLsb' 0 n = x := by
  apply BitVec.eq_of_getLsbD_eq
  intro k hk
  simp [hk, show k < 32 by omega]

/-- The reserved bits above a narrow register are 0 (R51). -/
theorem setWidth_word_high {n : Nat} (x : BitVec n) (l : Nat) : (x.setWidth 32).extractLsb' n l = 0#l := by
  apply BitVec.eq_of_getLsbD_eq
  intro k hk
  simp

/-- The implemented bits of a register of `n` bits, as the mask that a write leaves (R51). -/
theorem implementedBits_eq_mask (v : Word) (n : Nat) :
    (v.setWidth n).setWidth 32 = v &&& BitVec.ofNat 32 (2 ^ n - 1) := by
  apply BitVec.eq_of_getLsbD_eq
  intro k hk
  rw [BitVec.getLsbD_and, BitVec.getLsbD_ofNat, Nat.testBit_two_pow_sub_one]
  simp [hk, Bool.and_comm]

/-- CAND_COUNT field by field (R42). -/
theorem candCountWord_fields (c : CandEntry) :
    (candCountWord c).extractLsb' 0 17 = c.count ∧ (candCountWord c).extractLsb' 17 13 = 0#13 ∧
    (candCountWord c).getLsbD 30 = c.inuse ∧ (candCountWord c).getLsbD 31 = c.pass := by
  have flags (i : Nat) : (candCountWord c).getLsbD (17 + (13 + i)) =
      (BitVec.ofBool c.pass ++ BitVec.ofBool c.inuse).getLsbD i :=
    (getLsbD_append_high _ _ _).trans (getLsbD_append_high _ _ _)
  refine ⟨extract_append_low _ _, (extract_append_high _ _ 0 13).trans (extract_append_low _ _),
    (flags 0).trans (getLsbD_append_flag _ _), (flags 1).trans ((getLsbD_append_high _ _ 0).trans ?_)⟩
  cases c.pass <;> rfl

/-- CAND_DEV as a number: the deviation of any 17-bit count fits (R43). -/
theorem toInt_candDevWord (c : CandEntry) :
    (candDevWord c).toInt = if c.inuse = true then (c.count.toNat : Int) - 32768 else 0 := by
  have hc := c.count.isLt
  unfold candDevWord Config.half
  split
  · rw [BitVec.toInt_ofInt]
    exact Int.bmod_eq_of_le (by omega) (by omega)
  · rfl

end Sys2Proof.Machine
end

section
/-! PROOFS. The register window's statements (spec/10_state.md): what a write of each kind of register leaves, and what the reads
after it return. -/

namespace Sys2Proof.Machine

open Sys2Proof.Spec

/-- An offset outside R20's table is no register's (R50). -/
theorem regAt_reserved {off : BitVec 8} (h : off ∉ tableOffsets) : regAt off = none := by
  have listed : ∀ r ∈ allRegs, r.offset ∈ tableOffsets := by decide
  refine List.find?_eq_none.2 fun r hr heq => h ?_
  rw [← of_decide_eq_true heq]
  exact listed r hr

/-- A RO register's rule ignores the write (R20). -/
theorem Reg.write_readOnly (v : Word) (s : State) : ∀ r ∈ roRegs, r.write v s = s := by
  simp [roRegs, Reg.write]

/-- No register but CMD starts a command. -/
theorem Reg.write_busy {r : Reg} (h : r ≠ .cmd) (v : Word) (s : State) : (r.write v s).busy = s.busy := by
  cases r
  case cmd => exact absurd rfl h
  case cbLoad =>
    simp only [Reg.write, loadRecord]
    split_ifs <;> rfl
  all_goals rfl

/-- A register's rule gives the host no response: the bus does (R71). -/
theorem Reg.write_busLog (r : Reg) (v : Word) (s : State) : (r.write v s).busLog = s.busLog := by
  cases r
  case cbLoad =>
    simp only [Reg.write, loadRecord]
    split_ifs <;> rfl
  all_goals rfl

/-- A read after a write of any register but CMD, both while idle, is the register's value after the written one's rule. -/
theorem readWindow_writeWindow_idle {s : State} (hb : s.busy = false) {w : Reg} (hw : w ≠ .cmd) (v : Word)
    (r : Reg) : readWindow r.offset (writeWindow w.offset v s) = r.value (w.write v s) := by
  rw [writeWindow_reg_idle hb, readWindow_idle ((Reg.write_busy hw v s).trans hb)]

/-- A write of one half of the S-box changes the table and clears LAT_VALID (R27). -/
theorem Reg.write_sbox {r : Reg} (hr : r = .sboxLo ∨ r = .sboxHi) (v : Word) (s : State) :
    ∃ c, r.write v s = { s with cfg := c, latValid := false } := by
  obtain rfl | rfl := hr
  · exact ⟨_, rfl⟩
  · exact ⟨_, rfl⟩

/-- What a RW register's rule leaves, register by register (R22, R27 to R36, R41, R44, R46). -/
theorem Reg.write_rwWritten (v : Word) (s : State) : ∀ p ∈ rwWritten v s, p.1.write v s = p.2 := by
  simp [rwWritten, Reg.write, ← BitVec.setWidth_eq_extractLsb']

/-- A RW register's value after its write is the implemented bits of what was written (R51). -/
theorem Reg.value_write_self (v : Word) (s : State) :
    ∀ p ∈ rwRegs, p.1.value (p.1.write v s) = v &&& p.2 := by
  have flag : flagBit 0 (v.getLsbD 0) = v &&& 0x1#32 := by
    apply BitVec.eq_of_getLsbD_eq
    intro k hk
    rw [getLsbD_flagBit, BitVec.getLsbD_and, BitVec.getLsbD_one]
    cases k <;> simp
  have byte : (v.setWidth 8).setWidth 32 = v &&& 0xFF#32 := implementedBits_eq_mask v 8
  have block : (v.setWidth 16).setWidth 32 = v &&& 0xFFFF#32 := implementedBits_eq_mask v 16
  have word : v &&& 0xFFFFFFFF#32 = v := BitVec.and_allOnes
  simp [rwRegs, Reg.value, Reg.write, flag, byte, block, word, -BitVec.getLsbD_eq_getElem]

/-- A write of a RW register leaves the value of every register that R27 and R310 do not tie to it. -/
theorem Reg.value_write_other {w r : Reg} (hw : w ∈ rwRegs.map Prod.fst) (hr : r ∉ w :: alsoChangedBy w)
    (v : Word) (s : State) : r.value (w.write v s) = r.value s := by
  cases w <;> simp [rwRegs] at hw
  all_goals
    cases r <;> simp [alsoChangedBy] at hr
    all_goals rfl

/-- Settles O16: the write lock, and CTRL and STATUS outside it (R78). -/
theorem writesWhileBusyAreDropped : Obligations.WritesWhileBusyAreDropped := by
  intro s off v hb hal
  rw [busWrite_legal hal]
  refine ⟨fun hc hs => ?_, fun hc => ?_, fun hs => ?_⟩
  · rw [writeWindow_busy hb hc hs]; rfl
  · rw [hc, writeWindow_ctrl]; rfl
  · rw [hs, writeWindow_status]; rfl

/-- Settles O17: STATUS with the fields that `writeStatus` clears (R23). -/
theorem statusWriteClearsOnlyItsW1cBits : Obligations.StatusWriteClearsOnlyItsW1cBits := by
  intro s v hb
  refine ⟨?_, by rw [writeWindow_status]; rfl⟩
  have before : readWindow 0x08#8 s = statusWord s := readWindow_idle hb .status
  have after : readWindow 0x08#8 (writeWindow 0x08#8 v s) = statusWord (writeStatus v s) :=
    readWindow_writeWindow_idle hb (w := .status) (by decide) v .status
  rw [before, after]
  refine statusWord_clear fun k => ?_
  match k with
  | 0 | 1 | 2 | 3 | 4 | 5 => simp [statusField, writeStatus]
  | k + 6 => simp [statusField]

/-- Settles O18, from the rule, the value after it and the halves of a table. -/
theorem rwRegisterReadsBackItsImplementedBits : Obligations.RwRegisterReadsBackItsImplementedBits := by
  have notCmd : ∀ p ∈ rwRegs, p.1 ≠ .cmd := by decide
  refine ⟨fun s v hb => ⟨fun p hp => ?_, fun p hp => ?_⟩, fun t x => ⟨fun hx => if_pos hx, fun hx => ?_⟩⟩
  · rw [readWindow_writeWindow_idle hb (notCmd p hp)]
    exact Reg.value_write_self v s p hp
  · rw [writeWindow_reg_idle hb]
    exact Reg.write_rwWritten v s p hp
  · exact if_neg (Nat.not_lt.2 hx)

/-- Settles O19: what no register's rule changes, and the values that one RW register's rule leaves (R27, R310). -/
theorem registerWriteLeavesTheOthers : Obligations.RegisterWriteLeavesTheOthers := by
  intro s v hb p hp
  have other : ∀ p ∈ rwRegs, p.1 ≠ .cmd ∧ p.1 ≠ .cbLoad := by decide
  obtain ⟨notCmd, notCbLoad⟩ := other p hp
  obtain ⟨-, cand, lat, -, -, -, -, load⟩ := Reg.write_frame p.1 v s
  refine ⟨fun r hne hr => ?_, ?_⟩
  · rw [readWindow_writeWindow_idle hb notCmd, readWindow_idle hb]
    exact Reg.value_write_other (List.mem_map_of_mem hp) (by simp [hne, hr]) v s
  · rw [writeWindow_reg_idle hb]
    exact ⟨(load notCbLoad).1, lat, cand, Reg.write_busLog p.1 v s⟩

/-- Settles O20: the S-box's rule clears LAT_VALID, whatever it writes, and no array (R27, R53). -/
theorem sboxWriteClearsLatValid : Obligations.SboxWriteClearsLatValid := by
  intro s v off hb hoff
  obtain ⟨r, hr, rfl⟩ : ∃ r : Reg, (r = .sboxLo ∨ r = .sboxHi) ∧ r.offset = off := by
    obtain rfl | rfl := hoff
    exacts [⟨.sboxLo, .inl rfl, rfl⟩, ⟨.sboxHi, .inr rfl, rfl⟩]
  obtain ⟨c, hc⟩ := Reg.write_sbox hr v s
  have notCmd : r ≠ .cmd := by obtain rfl | rfl := hr <;> decide
  have after (p : Reg) : readWindow p.offset (writeWindow r.offset v s) =
      p.value { s with cfg := c, latValid := false } := by
    rw [readWindow_writeWindow_idle hb notCmd, hc]
  have status : statusWord { s with cfg := c, latValid := false } = statusWord s &&& ~~~0x08#32 := by
    refine statusWord_clear fun k => ?_
    match k with
    | 0 | 1 | 2 | 3 | 4 | 5 => simp [statusField]
    | k + 6 => simp [statusField]
  refine ⟨?_, ?_, ?_, (after .latData).trans (readWindow_idle hb .latData).symm⟩
  · exact (after .status).trans (status.trans (congrArg (· &&& ~~~0x08#32) (readWindow_idle hb .status).symm))
  · rw [writeWindow_reg_idle hb, hc]
  · rw [writeWindow_reg_idle hb, hc]

/-- Settles O21: the RO registers' rule while idle, the write lock while busy (R20, R78). -/
theorem readOnlyRegistersIgnoreWrites : Obligations.ReadOnlyRegistersIgnoreWrites := by
  intro s v r hr
  have locked : ∀ r ∈ roRegs, r.offset ≠ 0x04#8 ∧ r.offset ≠ 0x08#8 := by decide
  refine ⟨fun hb => ?_, fun hb => writeWindow_busy hb (locked r hr).1 (locked r hr).2 v⟩
  rw [writeWindow_reg_idle hb]
  exact Reg.write_readOnly v s r hr

/-- Settles O22: no register stands at a reserved offset, so only the write lock applies to it (R50, R78). -/
theorem reservedOffsetsReadZeroAndIgnoreWrites : Obligations.ReservedOffsetsReadZeroAndIgnoreWrites := by
  intro s off v hal hoff
  have none := regAt_reserved hoff
  rw [busRead_legal hal, busWrite_legal hal]
  refine ⟨?_, fun hb => ?_, fun hb => ?_⟩
  · rw [readWindow, none]; rfl
  · rw [writeWindow_idle hb, none]; rfl
  · have ctrl : off ≠ 0x04#8 := fun h => hoff (by rw [h]; decide)
    have status : off ≠ 0x08#8 := fun h => hoff (by rw [h]; decide)
    rw [writeWindow_busy hb ctrl status]; rfl

/-- Settles O23: three registers that no command has in its write set (R21, R25, R48, R107). -/
theorem idIsConstantAndWriteOnlyRegistersReadZero : Obligations.IdIsConstantAndWriteOnlyRegistersReadZero := by
  intro s
  have unlisted := readsCurrent_unlisted s
  exact ⟨readWindow_current (unlisted .id (by simp)) (by decide),
    readWindow_current (unlisted .cmd (by simp)) (by decide),
    readWindow_current (unlisted .cbLoad (by simp)) (by decide)⟩

/-- Settles O26: the index register takes the index, and the data port reads the array there. -/
theorem dataPortsReadTheSelectedEntry : Obligations.DataPortsReadTheSelectedEntry := by
  intro s hb
  refine ⟨fun a b => ?_, fun p => ?_, fun v t ht => ?_⟩
  · have port : readWindow 0xA4#8 (writeWindow 0xA0#8 ((a ++ b).setWidth 32) s) =
        (latEntry s a b).signExtend 32 := by
      refine (readWindow_writeWindow_idle hb (w := .latIdx) (by decide) _ .latData).trans ?_
      simp [Reg.value, Reg.write, latEntry, latIndex_row, latIndex_column]
    rw [port, BitVec.toInt_signExtend_of_le (by omega)]
  · refine (readWindow_writeWindow_idle hb (w := .cbIdx) (by decide) _ .cbData).trans ?_
    simp [Reg.value, Reg.write]
  · have count : readWindow 0x94#8 t = candCountWord (s.cand.get v) := by
      refine ht ▸ (readWindow_writeWindow_idle hb (w := .candIdx) (by decide) _ .candCount).trans ?_
      simp [Reg.value, Reg.write]
    have dev : readWindow 0x98#8 t = candDevWord (s.cand.get v) := by
      refine ht ▸ (readWindow_writeWindow_idle hb (w := .candIdx) (by decide) _ .candDev).trans ?_
      simp [Reg.value, Reg.write]
    obtain ⟨hcount, hzero, hinuse, hpass⟩ := candCountWord_fields (s.cand.get v)
    rw [count, dev]
    exact ⟨hcount, hzero, hinuse, hpass, toInt_candDevWord _⟩

/-- Settles O27: each register reads its word, and each word's fields stand in their bits. -/
theorem errReadsItsFields : Obligations.ErrReadsItsFields := by
  intro s
  have err : readWindow 0x0C#8 s = errWord s.err :=
    readWindow_current (readsCurrent_unlisted s .err (by simp)) (by decide)
  obtain ⟨lastOp, info, sub, code⟩ := errWord_fields s.err
  rw [err]
  refine ⟨lastOp, info, sub, ?_, fun b h => ?_, fun h => ?_,
    fun h => ?_, fun h => ?_, fun h => ?_, fun h => ?_, fun h => ?_⟩
  · rw [code]; cases s.err.code <;> rfl
  · rw [readWindow_status_current h, statusWord_field]
  · have read : readWindow 0x14#8 s = s.encResult.setWidth 32 := readWindow_current h (by decide)
    rw [read]
    exact ⟨setWidth_word_low _ (by omega), setWidth_word_high _ _⟩
  · have read : readWindow 0x80#8 s = atkStatusWord s.atkStatus := readWindow_current h (by decide)
    obtain ⟨outcome, rest⟩ := atkStatusWord_fields s.atkStatus
    rw [read, outcome]
    exact ⟨by cases s.atkStatus.outcome <;> rfl, rest⟩
  · have read : readWindow 0x84#8 s = s.atkWinner.setWidth 32 := readWindow_current h (by decide)
    rw [read]
    exact ⟨setWidth_word_low _ (by omega), setWidth_word_high _ _⟩
  · have read : readWindow 0x88#8 s = s.atkBest.setWidth 32 := readWindow_current h (by decide)
    rw [read]
    exact ⟨setWidth_word_low _ (by omega), setWidth_word_high _ _⟩
  · exact readWindow_current h (by decide)
  · have read : readWindow 0xBC#8 s = cbLoadStatWord s := readWindow_current h (by decide)
    rw [read]
    exact cbLoadStatWord_fields s

end Sys2Proof.Machine
end

section
/-! PROOFS. What a step changes: ERR, the arrays and CB_VALID (spec/10_state.md R23, R24, R52 to R54; spec/43_codebook_port.md
R234). -/

namespace Sys2Proof.Machine

/-- `t` has the ERR, the LAT RAM, the candidate RAM and the CB_VALID of `s`: what only a completion writes. -/
structure ResultsKept (s t : State) : Prop where
  err : t.err = s.err
  lat : t.lat = s.lat
  cand : t.cand = s.cand
  cbValid : t.cbValid = s.cbValid

/-- A write of the window keeps what only a completion writes (R78). -/
theorem writeWindow_resultsKept (off : BitVec 8) (v : Word) (s : State) :
    ResultsKept s (writeWindow off v s) := by
  obtain ⟨-, hw⟩ | ⟨-, hw⟩ | ⟨-, hw⟩ | ⟨-, r, -, hw⟩ | ⟨-, hw⟩ := writeWindow_cases off v s <;> rw [hw]
  case inr.inr.inr.inl =>
    obtain ⟨err, cand, lat, cbValid, -⟩ := Reg.write_frame r v s
    exact ⟨err, lat, cand, cbValid⟩
  all_goals exact ⟨rfl, rfl, rfl, rfl⟩

/-- A write of the window reaches the codebook RAM only as a record of a load, while idle (R78, R232). -/
theorem writeWindow_cb {off : BitVec 8} {v : Word} {s : State} (h : (writeWindow off v s).cb ≠ s.cb) :
    s.busy = false ∧ s.cbLoading = true ∧ off = 0xB8#8 := by
  obtain ⟨-, hw⟩ | ⟨-, hw⟩ | ⟨-, hw⟩ | ⟨hb, r, hr, hw⟩ | ⟨-, hw⟩ := writeWindow_cases off v s <;>
    rw [hw] at h
  case inr.inr.inr.inl =>
    obtain ⟨-, -, -, -, -, -, -, others⟩ := Reg.write_frame r v s
    obtain rfl : r = .cbLoad := by
      by_contra hne
      exact h (others hne).1
    obtain hsame | ⟨hl, -⟩ := loadRecord_cases v s
    · exact absurd (congrArg State.cb hsame) h
    · exact ⟨hb, hl, (offset_of_regAt hr).symm⟩
  all_goals exact absurd rfl h

/-- A turn of the host that is no reset keeps what only a completion writes (R24, R52 to R54). -/
theorem hostTurn_resultsKept {s : State} (hq : s.hostQueue.head? ≠ some .reset) : ResultsKept s (hostTurn s) := by
  obtain ⟨-, ht⟩ | ⟨a, rest, -, turn⟩ := hostTurn_cases hq
  · rw [ht]; exact ⟨rfl, rfl, rfl, rfl⟩
  · obtain ⟨-, ht⟩ | ⟨off, width, -, ht⟩ | ⟨off, width, strobes, v, -, ht⟩ := turn _ rfl <;> rw [ht]
    · exact ⟨rfl, rfl, rfl, rfl⟩
    · obtain ⟨r, hr⟩ := busRead_eq off width { engineTick s with hostQueue := rest }
      rw [hr]; exact ⟨rfl, rfl, rfl, rfl⟩
    · obtain ⟨-, -, -, hw⟩ | hw := busWrite_cases off width strobes v { engineTick s with hostQueue := rest } <;>
        rw [hw]
      · obtain ⟨err, lat, cand, cbValid⟩ := writeWindow_resultsKept off v { engineTick s with hostQueue := rest }
        exact ⟨err, lat, cand, cbValid⟩
      · exact ⟨rfl, rfl, rfl, rfl⟩

/-- A turn of the host that is no reset reaches the codebook RAM only by a record of a load, while idle (R232). -/
theorem hostTurn_cb {s : State} (hq : s.hostQueue.head? ≠ some .reset) (h : (hostTurn s).cb ≠ s.cb) :
    s.busy = false ∧ s.cbLoading = true ∧ ∃ w rest, s.hostQueue = .write 0xB8#8 .word 0xF#4 w :: rest := by
  obtain ⟨-, ht⟩ | ⟨a, rest, hs, turn⟩ := hostTurn_cases hq
  · rw [ht] at h; exact absurd rfl h
  · obtain ⟨-, ht⟩ | ⟨off, width, -, ht⟩ | ⟨off, width, strobes, v, rfl, ht⟩ := turn _ rfl <;> rw [ht] at h
    · exact absurd rfl h
    · obtain ⟨r, hr⟩ := busRead_eq off width { engineTick s with hostQueue := rest }
      rw [hr] at h; exact absurd rfl h
    · obtain ⟨rfl, rfl, -, hw⟩ | hw := busWrite_cases off width strobes v { engineTick s with hostQueue := rest } <;>
        rw [hw] at h
      · obtain ⟨hb, hl, rfl⟩ := writeWindow_cb h
        exact ⟨hb, hl, v, rest, hs⟩
      · exact absurd rfl h

/-- What the completion of the command `i` may have changed from `s` to `t`: each array and CB_VALID only by a command of their own
(R52 to R54, R234). -/
structure OwnResults (i : Instr) (s t : State) : Prop where
  lat : t.lat ≠ s.lat → i = .buildLat
  cand : t.cand ≠ s.cand → ∃ tgt fold, i = .attackStep tgt fold
  cb : t.cb ≠ s.cb → i = .genCodebook
  cbValid : t.cbValid ≠ s.cbValid →
    (t.cbValid = true ∧ t.err.code = .ok ∧ (i = .genCodebook ∨ i = .cbLoadEnd)) ∨
    (t.cbValid = false ∧ i = .cbLoadBegin)

/-- A completion of the state itself changes no array and not CB_VALID. -/
theorem ownResults_complete (i : Instr) (r : Report) (s : State) : OwnResults i s (complete r s) := by
  constructor <;> intro h <;> exact absurd rfl h

/-- CB_LOAD_END ends the load, if anything, or ends it and makes the codebook valid (R233). -/
theorem exec_cbLoadEnd_cases {s t : State} (h : exec .cbLoadEnd s = .next t) :
    (∃ r b, t = complete r { s with cbLoading := b }) ∨
      t = complete .ok { s with cbLoading := false, cbValid := true } := by
  obtain ⟨r, -, rfl⟩ | ⟨-, rfl⟩ := checked_eq_next_iff.1 h
  · exact .inl ⟨r, s.cbLoading, rfl⟩
  · split_ifs
    · exact .inl ⟨_, _, rfl⟩
    · exact .inl ⟨_, _, rfl⟩
    · exact .inl ⟨_, _, rfl⟩
    · exact .inr rfl

/-- Each array and CB_VALID change only at the completion of a command of their own (R52 to R54, R234). -/
theorem exec_ownResults {i : Instr} {s t : State} (h : exec i s = .next t) : OwnResults i s t := by
  cases i with
  | encrypt pt =>
    obtain ⟨r, -, rfl⟩ | ⟨-, rfl⟩ := checked_eq_next_iff.1 h
    · exact ownResults_complete _ r s
    · constructor <;> intro h <;> exact absurd rfl h
  | genCodebook =>
    obtain ⟨r, -, rfl⟩ | ⟨-, rfl⟩ := checked_eq_next_iff.1 h
    · exact ownResults_complete _ r s
    · exact ⟨fun h => absurd rfl h, fun h => absurd rfl h, fun _ => rfl, fun _ => .inl ⟨rfl, rfl, .inl rfl⟩⟩
  | buildLat =>
    obtain ⟨r, -, rfl⟩ | ⟨-, rfl⟩ := checked_eq_next_iff.1 h
    · exact ownResults_complete _ r s
    · exact ⟨fun _ => rfl, fun h => absurd rfl h, fun h => absurd rfl h, fun h => absurd rfl h⟩
  | cbLoadBegin =>
    obtain rfl := Host.Outcome.next.inj h
    exact ⟨fun h => absurd rfl h, fun h => absurd rfl h, fun h => absurd rfl h, fun _ => .inr ⟨rfl, rfl⟩⟩
  | cbLoadEnd =>
    obtain ⟨r, b, rfl⟩ | rfl := exec_cbLoadEnd_cases h
    · constructor <;> intro h <;> exact absurd rfl h
    · exact ⟨fun h => absurd rfl h, fun h => absurd rfl h, fun h => absurd rfl h,
        fun _ => .inl ⟨rfl, rfl, .inr rfl⟩⟩
  | attackStep tgt foldBit =>
    obtain ⟨r, -, rfl⟩ | ⟨-, rfl⟩ := checked_eq_next_iff.1 h
    · exact ownResults_complete _ r s
    · obtain ⟨kv, km, hk⟩ := decideStep_eq tgt foldBit (allCounts s tgt) s
      rw [hk]
      exact ⟨fun h => absurd rfl h, fun _ => ⟨tgt, foldBit, rfl⟩, fun h => absurd rfl h, fun h => absurd rfl h⟩
  | validate =>
    obtain ⟨r, -, rfl⟩ | ⟨-, rfl⟩ := checked_eq_next_iff.1 h
    · exact ownResults_complete _ r s
    · exact ownResults_complete _ _ s

/-- Every command ends with BUSY = 0 (R102). -/
theorem exec_busy {i : Instr} {s t : State} (h : exec i s = .next t) : t.busy = false := by
  obtain ⟨r, -, -, hr⟩ | ⟨r, u, -, -, hr, -⟩ := exec_cases i s
  · rw [← Host.Outcome.next.inj (hr.symm.trans h), complete_busy]
  · rw [← Host.Outcome.next.inj (hr.symm.trans h), complete_busy]

/-- A step that is no reset: the completion of a command in flight, which changes its own results only, or else a step that keeps
the arrays, a record apart, and CB_VALID. -/
theorem step_results {s t : State} (h : step s = .next t) (hq : s.hostQueue.head? ≠ some .reset) :
    (s.busy = true ∧ s.remaining ≤ 1 ∧ t.busy = false ∧
      ∃ i, decode s.cmdPending = .ok i ∧ OwnResults i s t) ∨
    (t.lat = s.lat ∧ t.cand = s.cand ∧ t.cbValid = s.cbValid ∧
      (t.cb ≠ s.cb → s.busy = false ∧ s.cbLoading = true ∧
        ∃ w rest, s.hostQueue = .write 0xB8#8 .word 0xF#4 w :: rest)) := by
  obtain ⟨rest, hs, -⟩ | ⟨-, hb, hr, ⟨i, hd, hx⟩ | ⟨e, -, rfl⟩⟩ | ⟨-, -, rfl⟩ := step_cases h
  · exact absurd (by rw [hs]; rfl) hq
  · exact .inl ⟨hb, hr, exec_busy hx, i, hd, exec_ownResults hx⟩
  · exact .inr ⟨rfl, rfl, rfl, fun h => absurd rfl h⟩
  · obtain ⟨-, lat, cand, cbValid⟩ := hostTurn_resultsKept hq
    exact .inr ⟨lat, cand, cbValid, hostTurn_cb hq⟩

/-- Settles O33: of all a step can do, a turn of the host keeps ERR. -/
theorem errChangesOnlyAtCompletion : Obligations.ErrChangesOnlyAtCompletion := by
  intro s t h herr
  obtain ⟨rest, hs, -⟩ | ⟨-, hb, hr, -⟩ | ⟨hq, -, rfl⟩ := step_cases h
  · exact .inl (by rw [hs]; rfl)
  · exact .inr ⟨hb, hr⟩
  · exact absurd (hostTurn_resultsKept hq).err herr

/-- Settles O34, from the two kinds of step in `step_results`. -/
theorem arraysChangeOnlyByTheirWriters : Obligations.ArraysChangeOnlyByTheirWriters := by
  intro s t h hq
  obtain ⟨hb, hr, ht, i, hd, own⟩ | ⟨lat, cand, -, cb⟩ := step_results h hq
  · refine ⟨fun hne => ⟨hb, hr, ht, own.lat hne ▸ hd⟩, fun hne => ⟨hb, hr, ht, ?_⟩,
      fun hne => .inl ⟨hb, hr, ht, own.cb hne ▸ hd⟩⟩
    obtain ⟨tgt, fold, rfl⟩ := own.cand hne
    exact ⟨tgt, fold, hd⟩
  · exact ⟨fun hne => absurd lat hne, fun hne => absurd cand hne, fun hne => .inr (cb hne)⟩

/-- Settles O35: only a completion changes CB_VALID, and the command says how. -/
theorem codebookValidityChangesOnlyByItsCommands : Obligations.CodebookValidityChangesOnlyByItsCommands := by
  intro s t h hq hne
  obtain ⟨hb, -, ht, i, hd, own⟩ | ⟨-, -, cbValid, -⟩ := step_results h hq
  · refine ⟨hb, ht, ?_⟩
    obtain ⟨hv, hok, rfl | rfl⟩ | ⟨hv, rfl⟩ := own.cbValid hne
    · exact .inl ⟨hv, hok, .inl hd⟩
    · exact .inl ⟨hv, hok, .inr hd⟩
    · exact .inr ⟨hv, hd⟩
  · exact absurd cbValid hne

end Sys2Proof.Machine
end

section
/-! PROOFS. What BUILD_LAT stores and which candidate ATTACK_STEP reports as the best (spec/41_lat_builder.md R170 to R173;
spec/42_attack_engine.md R196 to R203). -/

namespace Sys2Proof.Machine

open Sys2Proof.Spec

/-- LATVAL as the count over the values 0 to 15 (R170, R171). -/
theorem latValue_eq (sbox : Table) (a b : Nibble) :
    latValue sbox a b = -8 + (((List.range 16).countP fun x =>
      parity (BitVec.ofNat 4 x &&& a) == parity (sbox.entry (BitVec.ofNat 4 x) &&& b) : Nat) : Int) := by
  rw [latValue, allNibbles, List.countP_map]
  rfl

/-- BUILD_LAT of a bijective S-box completes with its table (R138, R173). -/
theorem exec_buildLat_of_bijective {s : State} (h : s.cfg.sbox.Bijective) :
    exec .buildLat s = .next (complete .ok { s with lat := latTable s.cfg.sbox, latValid := true }) := by
  simp [exec, execBuildLat, checkSboxFwd_eq_none_iff.2 h]

/-- Settles O45: the entries of the table that the RAM holds (R53, R171). -/
theorem buildLatStoresTheTable : Obligations.BuildLatStoresTheTable := by
  intro s h
  refine ⟨_, exec_buildLat_of_bijective h, fun a b => ?_, rfl⟩
  rw [← latValue_eq]
  exact latTable_get s.cfg.sbox a b

/-- The number of agreements under a trial key is the count of R196 to R198. -/
theorem agreementCount_agreementsUnder (s : State) (key : Block) :
    AgreementCount s key (agreementsUnder s key) := by
  refine ⟨partialDecrypt s key, fun p j hj => nib_substitute _ _ hj, List.countP_congr fun p _ => ?_⟩
  simp [relation]

/-- Keeping the first of the largest values while scanning 0, 1, ... gives the least place of the largest value. -/
theorem foldl_range_argmax (f : Nat → Nat) (n : Nat) :
    let b := (List.range (n + 1)).foldl (fun b v => if f b < f v then v else b) 0
    b < n + 1 ∧ ∀ v < n + 1, f v ≤ f b ∧ (v < b → f v < f b) := by
  induction n with
  | zero => simp
  | succ n ih =>
    rw [List.range_succ, List.foldl_append]
    generalize (List.range (n + 1)).foldl (fun b v => if f b < f v then v else b) 0 = b at ih
    obtain ⟨hb, hmax⟩ := ih
    simp only [List.foldl_cons, List.foldl_nil]
    split_ifs with hlt
    · refine ⟨by omega, fun v hv => ?_⟩
      obtain rfl | hv' : v = n + 1 ∨ v < n + 1 := by omega
      · exact ⟨le_refl _, fun h => absurd h (lt_irrefl _)⟩
      · have := (hmax v hv').1
        exact ⟨by omega, fun _ => by omega⟩
    · refine ⟨by omega, fun v hv => ?_⟩
      obtain rfl | hv' : v = n + 1 ∨ v < n + 1 := by omega
      · exact ⟨by omega, fun h => by omega⟩
      · exact hmax v hv'

/-- best is the least candidate of largest magnitude (R203). -/
theorem bestCandidate_spec {counts : List Nat} (h : 0 < counts.length) :
    bestCandidate counts < counts.length ∧ ∀ v < counts.length,
      magnitude (counts.getD v 0) ≤ magnitude (counts.getD (bestCandidate counts) 0) ∧
      (v < bestCandidate counts →
        magnitude (counts.getD v 0) < magnitude (counts.getD (bestCandidate counts) 0)) := by
  obtain ⟨n, hn⟩ : ∃ n, counts.length = n + 1 := ⟨counts.length - 1, by omega⟩
  rw [bestCandidate, hn]
  exact foldl_range_argmax (fun v => magnitude (counts.getD v 0)) n

/-- A step's counts are those of its candidates (R191, R199). -/
theorem allCounts_length (s : State) (tgt : Nibble) : (allCounts s tgt).length = candidateCount tgt := by
  simp [allCounts]

/-- A candidate's count stands at its number (R199). -/
theorem allCounts_getD {s : State} {tgt : Nibble} {v : BitVec 8} (h : IsCandidate tgt v) :
    (allCounts s tgt).getD v.toNat 0 = agreementCount s tgt v := by
  rw [List.getD_eq_getElem?_getD, allCounts_getElem? h, Option.getD_some, BitVec.ofNat_toNat, BitVec.setWidth_eq]

/-- The deviation of a count fits ATK_BEST_DEV (R40, R198). -/
theorem toInt_deviation {c : Nat} (h : c ≤ 65536) : (BitVec.ofInt 32 (deviation c)).toInt = (c : Int) - 32768 := by
  unfold deviation Config.half
  rw [BitVec.toInt_ofInt]
  exact Int.bmod_eq_of_le (by omega) (by omega)

/-- ATK_BEST holds best whole, for there are at most 256 candidates, and it is the least candidate whose deviation is largest
(R39, R191, R203). -/
theorem atkBest_spec {s : State} {tgt : Nibble} {best : BitVec 8} (h : popcount tgt ≤ 2)
    (hbest : best = BitVec.ofNat 8 (bestCandidate (allCounts s tgt))) :
    IsCandidate tgt best ∧
    (allCounts s tgt).getD (bestCandidate (allCounts s tgt)) 0 = agreementCount s tgt best ∧
    ∀ v : BitVec 8, IsCandidate tgt v →
      magnitude (agreementCount s tgt v) ≤ magnitude (agreementCount s tgt best) ∧
      (v.toNat < best.toNat →
        magnitude (agreementCount s tgt v) < magnitude (agreementCount s tgt best)) := by
  have hpos : 0 < (allCounts s tgt).length := by rw [allCounts_length]; exact Nat.two_pow_pos _
  obtain ⟨hlt, hmax⟩ := bestCandidate_spec hpos
  have hnat : bestCandidate (allCounts s tgt) = best.toNat := by
    have := allCounts_length_le (s := s) h
    rw [hbest, BitVec.toNat_ofNat, Nat.mod_eq_of_lt (by omega)]
  rw [hnat] at hlt hmax ⊢
  rw [allCounts_length] at hlt hmax
  refine ⟨hlt, allCounts_getD hlt, fun v hv => ?_⟩
  have := hmax v.toNat hv
  rwa [allCounts_getD hlt, allCounts_getD hv] at this

/-- Settles O51: the scored step reports best of the candidates' counts, and its deviation. -/
theorem attackStepReportsTheBestCandidate : Obligations.AttackStepReportsTheBestCandidate := by
  intro s tgt fold ready
  obtain ⟨-, hbest, hdev, -⟩ := decideStep_results tgt fold (allCounts s tgt) s
  obtain ⟨hcand, hcount, hmax⟩ := atkBest_spec ready.atMostTwo hbest
  refine ⟨_, exec_attackStep_of_ready fold ready, hcand,
    fun v hv => ⟨agreementCount_agreementsUnder s _, hmax v hv⟩, ?_⟩
  rw [hdev, hcount]
  exact toInt_deviation (agreementCount_le s tgt _)

end Sys2Proof.Machine
end

section
/-! PROOFS. The command word's round trip through the decoder (spec/30_encoding.md R106, R111; spec/20_memory.md R75). -/

namespace Sys2Proof

/-- The decoder reads every command's word as that command (R106, R111). -/
theorem decode_encode (i : Instr) : decode (encode i) = .ok i := by
  cases i with
  | encrypt pt =>
    obtain ⟨hopc, hpt, hres⟩ := fields_encode_encrypt pt
    simp [decode, withReserved_eq_ok_iff, hopc, hpt, hres]
  | attackStep tgt fold =>
    obtain ⟨hopc, htgt, hfold, hres⟩ := fields_encode_attackStep tgt fold
    simp [decode, withReserved_eq_ok_iff, hopc, htgt, hfold, hres]
  | genCodebook | buildLat | cbLoadBegin | cbLoadEnd | validate => rfl

/-- Settles O1: the decoder undoes the encoder, and four byte lanes decode as their word does. -/
theorem decodeOfEncodedCommand : Obligations.DecodeOfEncodedCommand := by
  intro i _
  exact ⟨decode_encode i, (decodeBytes_toBytes _).trans (decode_encode i)⟩

end Sys2Proof
end

section
/-! PROOFS. The bus and the step while no command is due (spec/20_memory.md R71 to R86): what an access does, what it leaves, and
what a read returns while a command is in flight. -/

namespace Sys2Proof.Machine

open Sys2Proof.Spec

/-- A misaligned or narrow read is answered with an error and data 0 (R74). -/
theorem busRead_illegal {off : BitVec 8} {width : BusWidth} (h : off.toNat % 4 ≠ 0 ∨ width ≠ .word)
    (s : State) : busRead off width s = respond (.read 0#32 true) s := by
  refine if_neg fun hl => ?_
  obtain ⟨hw, hal⟩ := legalAccess_iff.1 hl
  exact h.elim (absurd hal) (absurd hw)

/-- A misaligned or narrow write, or one without all strobes, is answered with an error (R74). -/
theorem busWrite_illegal {off : BitVec 8} {width : BusWidth} {strobes : BitVec 4}
    (h : off.toNat % 4 ≠ 0 ∨ width ≠ .word ∨ strobes ≠ 0xF#4) (v : Word) (s : State) :
    busWrite off width strobes v s = respond (.write true) s := by
  obtain ⟨hw, hs, hal, -⟩ | hr := busWrite_cases off width strobes v s
  · exact h.elim (absurd hal) (Or.elim · (absurd hw) (absurd hs))
  · exact hr

/-- A register's value does not depend on the agents' fields or on the model's counter. -/
theorem Reg.value_agents (r : Reg) (s : State) (n d : Nat) (q : List HostAction) (l : List BusResponse) :
    r.value { s with remaining := n, draws := d, hostQueue := q, busLog := l } = r.value s := by
  cases r <;> rfl

/-- What a read returns does not depend on them either, but that a read of the write set in flight takes the value of the draw it is made at (R79). -/
theorem readWindow_agents (off : BitVec 8) {s t : State} {n d : Nat} {q : List HostAction}
    {l : List BusResponse} (ht : t = { s with remaining := n, draws := d, hostQueue := q, busLog := l })
    (hd : s.busy = true → d = s.draws) : readWindow off t = readWindow off s := by
  cases hr : regAt off with
  | none => simp only [readWindow, hr]
  | some r =>
    obtain rfl := offset_of_regAt hr
    have value : r.value t = r.value s := by rw [ht, Reg.value_agents]
    cases hb : s.busy with
    | false => rw [readWindow_idle (by rw [ht]; exact hb), readWindow_idle hb, value]
    | true =>
      have any : anyBits t r = anyBits s r := by rw [ht]; rfl
      have draws : t.draws = s.draws := by rw [ht]; exact hd hb
      rw [readWindow_mixed, readWindow_mixed, value, any, draws]

/-- One engine step of a command in flight is one step less to go (R305). -/
theorem engineTick_of_busy {s : State} (hb : s.busy = true) :
    engineTick s = { s with remaining := s.remaining - 1 } := by
  simp [engineTick, hb]

/-- A bus write while a command is in flight reaches CTRL, DONE and BUSY_VIOL at most, legal or not (R74, R78). -/
theorem busWrite_busy_frame {s : State} (hb : s.busy = true) (off : BitVec 8) (width : BusWidth)
    (strobes : BitVec 4) (v : Word) :
    ∃ en done viol l, busWrite off width strobes v s =
      { s with irqEn := en, done := done, busyViol := viol, busLog := l } := by
  obtain ⟨-, -, -, hw⟩ | hw := busWrite_cases off width strobes v s <;> rw [hw]
  · obtain ⟨en, done, viol, hwin⟩ := writeWindow_busy_frame hb off v
    rw [hwin]
    exact ⟨en, done, viol, _, rfl⟩
  · exact ⟨_, _, _, _, rfl⟩

/-- A turn of the host that is no reset, while a command is in flight, takes one input and one engine step, and of the block's registers
it reaches CTRL, DONE and BUSY_VIOL at most (R78, R85). -/
theorem hostTurn_busy_frame {s : State} (hb : s.busy = true) (hq : s.hostQueue.head? ≠ some .reset) :
    ∃ en done viol d l, hostTurn s =
      { s with
        irqEn := en, done := done, busyViol := viol, remaining := s.remaining - 1, draws := d,
        hostQueue := s.hostQueue.tail, busLog := l } := by
  obtain ⟨hs, ht⟩ | ⟨a, rest, hs, turn⟩ := hostTurn_cases hq
  · have htail : s.hostQueue.tail = s.hostQueue := by rw [hs]; rfl
    rw [ht, engineTick_of_busy hb, htail]
    exact ⟨_, _, _, _, _, rfl⟩
  · have hbefore : { s with remaining := s.remaining - 1, hostQueue := rest } =
        { engineTick s with hostQueue := rest } := by rw [engineTick_of_busy hb]
    obtain ⟨-, ht⟩ | ⟨off, width, -, ht⟩ | ⟨off, width, strobes, v, -, ht⟩ := turn _ hbefore <;> rw [ht, hs]
    · exact ⟨_, _, _, _, _, rfl⟩
    · obtain ⟨r, hr⟩ := busRead_eq off width { s with remaining := s.remaining - 1, hostQueue := rest }
      rw [hr]
      exact ⟨_, _, _, _, _, rfl⟩
    · obtain ⟨en, done, viol, l, hw⟩ := busWrite_busy_frame
        (s := { s with remaining := s.remaining - 1, hostQueue := rest }) hb off width strobes v
      rw [hw]
      exact ⟨en, done, viol, _, l, rfl⟩

/-- Settles O13: the step is an engine tick, whose field no read shows. -/
theorem engineTickChangesNothingVisible : Obligations.EngineTickChangesNothingVisible := by
  intro s hdue hq
  have hstep : step s = .next (engineTick s) := by rw [step_of_not_due hdue, hostTurn_nil hq]
  refine ⟨hstep, fun off t ht => ?_⟩
  obtain rfl := Host.Outcome.next.inj (hstep.symm.trans ht)
  exact readWindow_agents off rfl fun _ => rfl

/-- Settles O14, from the frame of the host's turn. -/
theorem inputsAreStableWhileBusy : Obligations.InputsAreStableWhileBusy := by
  intro s hb hr hq
  refine ⟨hostTurn s, step_of_not_due fun _ => hr, ?_⟩
  obtain ⟨en, done, viol, d, l, ht⟩ := hostTurn_busy_frame hb hq
  rw [ht]

/-- Settles O24: a read is a response, and the list of responses shows in no read. -/
theorem readsHaveNoSideEffect : Obligations.ReadsHaveNoSideEffect := by
  intro s off width
  obtain ⟨r, hr⟩ := busRead_eq off width s
  rw [hr]
  refine ⟨rfl, fun hb off' t ht => ?_⟩
  exact readWindow_agents off' ht fun hbusy => absurd (hb.symm.trans hbusy) (by decide)

/-- The bits of a register that read as drawn while a legal command is in flight are those of its write set (R79, R107). -/
theorem anyBits_of_decode {s : State} {i : Instr} (hb : s.busy = true) (hd : decode s.cmdPending = .ok i)
    (r : Reg) : anyBits s r = writeSetMask i r := by
  simp [anyBits, inFlight_busy hb hd]

/-- STATUS is in no write set as a whole register, only with its own bits (R107). -/
theorem writeSetMask_status (i : Instr) : writeSetMask i .status = writeSetStatusBits i := by
  cases i <;> rfl

/-- Settles O25: whole registers of the write set, registers outside it, STATUS bit by bit, and an illegal word. -/
theorem busyReadsOfTheWriteSet : Obligations.BusyReadsOfTheWriteSet := by
  intro s hb
  refine ⟨fun i hd => ⟨fun r hr => ?_, fun r hr hs => ?_, ?_⟩, fun e hd r => ?_⟩
  · exact readWindow_any (by rw [anyBits_of_decode hb hd, writeSetMask_eq, if_pos hr])
  · exact readWindow_reg (by rw [anyBits_of_decode hb hd, writeSetMask_eq, if_neg hr, if_neg hs])
  · rw [← writeSetMask_status, ← anyBits_of_decode hb hd]
    exact readWindow_mixed s .status
  · exact readWindow_reg (by simp [anyBits, inFlight_illegal hd])

/-- Settles O8: the turn of the host by the head of its queue. -/
theorem stepPerformsTheNextAccess : Obligations.StepPerformsTheNextAccess := by
  intro s a rest hdue hq before hbefore
  have turn : step s = .next { hostAct a before with draws := s.draws + 1 } := by
    rw [step_of_not_due hdue, hostTurn_cons hq, hbefore]
    rfl
  refine ⟨?_, fun off width => ?_, fun off width strobes v => ?_⟩ <;> rintro rfl <;> exact turn

/-- Settles O15: the error response alone for an illegal access, the window for a legal one (R74). -/
theorem illegalAccessChangesNothing : Obligations.IllegalAccessChangesNothing := by
  intro s off width strobes v
  exact ⟨fun h => busRead_illegal h s, fun h => busWrite_illegal h v s,
    fun hal => ⟨busRead_legal hal s, busWrite_legal hal v s⟩⟩

end Sys2Proof.Machine
end

section
/-! PROOFS. The invariant of Safety.lean, kept by each thing a step can do: a reset, the host's turn, and a completion
(spec/30_encoding.md R101, R102; spec/41_lat_builder.md R175; spec/42_attack_engine.md R201 to R205; spec/43_codebook_port.md R232 to
R234). -/

namespace Sys2Proof.Machine

/-- The invariant speaks of neither the inputs still to come, the responses received, nor the counter of free values. -/
theorem Invariant.agents {s : State} (h : Invariant s) (d : Nat) (q : List HostAction) (l : List BusResponse) :
    Invariant { s with draws := d, hostQueue := q, busLog := l } := { h with }

/-- It holds after every reset, whatever the arrays hold then (R300, R302). -/
theorem invariant_resetWith (n : Nat) (q : List HostAction) (l : List BusResponse) :
    Invariant (State.resetWith n q l) := by
  constructor <;> simp [State.resetWith, AttackConsistent, resetErr, resetAtkStatus, listedOutcome]

/-- An engine step that is not the command's last leaves one to go (R305). -/
theorem Invariant.after_engineTick {s : State} (h : Invariant s) (hdue : s.busy = true → 1 < s.remaining) :
    Invariant (engineTick s) := by
  refine { h with engine := ?_ }
  cases hb : s.busy with
  | true => have := hdue hb; simp [hb]; omega
  | false => simpa [hb] using h.engine

/-- A STATUS write sets no DONE (R23). -/
theorem Invariant.after_writeStatus {s : State} (h : Invariant s) (v : Word) : Invariant (writeStatus v s) :=
  { h with doneIdle := fun hb => by simp [h.doneIdle hb] }

/-- An accepted command has an engine step to go, and DONE is cleared (R101, R305). -/
theorem Invariant.after_accept {s : State} (h : Invariant s) (w : Word) : Invariant (accept w s) :=
  { h with engine := by simp [Config.latency], doneIdle := fun _ => rfl }

/-- A record is counted only below 65536, and each fault is latched at its own side of that bound (R232). -/
theorem Invariant.after_loadRecord {s : State} (h : Invariant s) (w : Word) : Invariant (loadRecord w s) := by
  obtain hsame | ⟨-, hovf, hord, ⟨hfull, hw⟩ | ⟨hnot, hw⟩ | ⟨hnot, -, hw⟩⟩ := loadRecord_cases w s
  · rw [hsame]; exact h
  · rw [hw]; exact { h with overflow := fun _ => hfull }
  · have := h.loadCount
    rw [hw]; exact { h with order := fun _ => by show s.loadCount.toNat < 65536; omega }
  · have hle := h.loadCount
    have hcount : (s.loadCount + 1#17).toNat ≤ 65536 := by rw [BitVec.toNat_add]; simp; omega
    rw [hw]
    exact { h with
      loadCount := hcount
      overflow := fun ho => absurd (hovf.symm.trans ho) (by decide)
      order := fun ho => absurd (hord.symm.trans ho) (by decide) }

/-- Every register's rule keeps the invariant; the S-box's clears LAT_VALID (R27). -/
theorem Invariant.after_regWrite {s : State} (h : Invariant s) (r : Reg) (v : Word) : Invariant (r.write v s) := by
  cases r
  case status => exact h.after_writeStatus v
  case cmd => exact h.after_accept v
  case cbLoad => exact h.after_loadRecord v
  case sboxLo | sboxHi => exact { h with lat := fun hl => absurd hl Bool.false_ne_true }
  all_goals exact { h with }

theorem Invariant.after_writeWindow {s : State} (h : Invariant s) (off : BitVec 8) (v : Word) :
    Invariant (writeWindow off v s) := by
  obtain ⟨-, hw⟩ | ⟨-, hw⟩ | ⟨-, hw⟩ | ⟨-, r, -, hw⟩ | ⟨-, hw⟩ := writeWindow_cases off v s <;> rw [hw]
  · exact { h with }
  · exact { h with }
  · exact h.after_writeStatus v
  · exact h.after_regWrite r v
  · exact h

theorem Invariant.after_busWrite {s : State} (h : Invariant s) (off : BitVec 8) (width : BusWidth)
    (strobes : BitVec 4) (v : Word) : Invariant (busWrite off width strobes v s) := by
  obtain ⟨-, -, -, hw⟩ | hw := busWrite_cases off width strobes v s <;> rw [hw]
  · exact (h.after_writeWindow off v).agents _ _ _
  · exact h.agents _ _ _

/-- A turn of the host keeps the invariant: an engine step, then the input's own effect (R71). -/
theorem Invariant.after_hostTurn {s : State} (h : Invariant s) (hdue : s.busy = true → 1 < s.remaining)
    (hq : s.hostQueue.head? ≠ some .reset) : Invariant (hostTurn s) := by
  obtain ⟨-, ht⟩ | ⟨a, rest, -, turn⟩ := hostTurn_cases hq
  · rw [ht]; exact h.after_engineTick hdue
  · have before : Invariant { engineTick s with hostQueue := rest } := (h.after_engineTick hdue).agents _ _ _
    obtain ⟨-, ht⟩ | ⟨off, width, -, ht⟩ | ⟨off, width, strobes, v, -, ht⟩ := turn _ rfl <;> rw [ht]
    · exact before.agents _ _ _
    · obtain ⟨r, hr⟩ := busRead_eq off width { engineTick s with hostQueue := rest }
      rw [hr]; exact before.agents _ _ _
    · exact (before.after_busWrite off width strobes v).agents _ _ _

/-- A completion with a listed report leaves the engine idle (R102, R261). -/
theorem Invariant.after_complete {s : State} (h : Invariant s) {r : Report}
    (hr : listedOutcome r.code r.sub = true) : Invariant (complete r s) :=
  { h with engine := by simp, doneIdle := fun hb => absurd hb Bool.false_ne_true, listed := hr }

/-- The attack's results agree with one another after a scored step of at most 256 candidates (R37, R201, R202, R205). -/
theorem attackConsistent_attackResults (tgt : Nibble) (folds : Bool) {counts : List Nat} (s : State)
    (hlen : counts.length ≤ 256) (hfold : folds = true → survivorCount s.atkThresh counts = 1) :
    AttackConsistent (attackResults tgt folds counts s) := by
  have hpass := passCount_candTable s.atkThresh counts hlen
  have hwin := winner_pass s.atkThresh counts hlen
  have hle : survivorCount s.atkThresh counts ≤ 256 := List.countP_le_length.trans hlen
  have hnofold (hne : survivorCount s.atkThresh counts ≠ 1) : folds = false :=
    Bool.eq_false_iff.2 fun hf => hne (hfold hf)
  unfold AttackConsistent attackResults outcomeOf
  by_cases h1 : survivorCount s.atkThresh counts = 1
  · simp [h1, hpass, hwin h1]
  by_cases h0 : survivorCount s.atkThresh counts = 0
  · simp [h0, hpass, hnofold h1, winner]
  · simp [h0, h1, hpass, hnofold h1, winner]
    omega

/-- The report of an illegal word is a listed outcome (R103, R261). -/
theorem illegalReport_listed (e : IllegalWord) (w : Word) :
    listedOutcome (illegalReport e w).code (illegalReport e w).sub = true := by
  cases e <;> rfl

/-- Clearing the load state keeps the invariant while a valid codebook and a load exclude each other (R142, R231). -/
theorem Invariant.of_emptyLoad {s : State} (h : Invariant s) (cb : Ram Block 16) {valid loading : Bool}
    (hx : valid = true → loading = false) :
    Invariant { s with
      cb := cb, cbValid := valid, cbLoading := loading, loadCount := 0#17, loadOvf := false, loadOrd := false } :=
  { h with
    loadCount := by simp
    validNotLoading := hx
    overflow := fun ho => absurd ho Bool.false_ne_true
    order := fun _ => by simp }

/-- Ending a load leaves none in progress, whether the codebook becomes valid or not (R233). -/
theorem Invariant.of_endedLoad {s : State} (h : Invariant s) (valid : Bool) :
    Invariant { s with cbLoading := false, cbValid := valid } :=
  { h with validNotLoading := fun _ => rfl }

/-- A scored step keeps the invariant: its results agree, and its report is listed (R201 to R205). -/
theorem Invariant.after_decideStep {s : State} (h : Invariant s) (tgt : Nibble) (foldBit : Bool)
    {counts : List Nat} (hlen : counts.length ≤ 256) : Invariant (decideStep tgt foldBit counts s) := by
  obtain ⟨kv, km, hk⟩ := decideStep_eq tgt foldBit counts s
  rw [hk]
  refine Invariant.after_complete ?_ (attackReport_listed _).1
  have hfold : (foldBit && decide (survivorCount s.atkThresh counts = 1)) = true →
      survivorCount s.atkThresh counts = 1 := by simp
  exact { h with attack := attackConsistent_attackResults tgt _ s hlen hfold }

/-- Every command keeps the invariant: a failed check leaves the data alone, and what a completed command writes agrees
(R102, R173, R205, R231, R233). -/
theorem Invariant.after_exec {s t : State} (h : Invariant s) {i : Instr} (hx : exec i s = .next t) : Invariant t := by
  cases i with
  | encrypt pt =>
    obtain ⟨r, hr, rfl⟩ | ⟨-, rfl⟩ := checked_eq_next_iff.1 hx
    · exact h.after_complete (checkCipher_listed hr).1
    · refine Invariant.after_complete ?_ (r := .ok) rfl
      exact { h with }
  | genCodebook =>
    obtain ⟨r, hr, rfl⟩ | ⟨-, rfl⟩ := checked_eq_next_iff.1 hx
    · exact h.after_complete (checkCipher_listed hr).1
    · exact (h.of_emptyLoad _ fun _ => rfl).after_complete rfl
  | buildLat =>
    obtain ⟨r, hr, rfl⟩ | ⟨hc, rfl⟩ := checked_eq_next_iff.1 hx
    · obtain ⟨y, -, rfl⟩ := Option.map_eq_some_iff.1 hr
      exact h.after_complete rfl
    · refine Invariant.after_complete ?_ (r := .ok) rfl
      exact { h with lat := fun _ => ⟨checkSboxFwd_eq_none_iff.1 hc, rfl⟩ }
  | cbLoadBegin =>
    obtain rfl := Host.Outcome.next.inj hx
    exact (h.of_emptyLoad s.cb fun hv => absurd hv Bool.false_ne_true).after_complete rfl
  | cbLoadEnd =>
    obtain ⟨r, hr, rfl⟩ | ⟨-, rfl⟩ := checked_eq_next_iff.1 hx
    · split_ifs at hr
      obtain rfl := Option.some.inj hr
      exact h.after_complete rfl
    · split_ifs <;> exact (h.of_endedLoad _).after_complete rfl
  | attackStep tgt foldBit =>
    obtain ⟨r, hr, rfl⟩ | ⟨hc, rfl⟩ := checked_eq_next_iff.1 hx
    · exact h.after_complete (checkAttack_listed hr).1
    · exact h.after_decideStep tgt foldBit (allCounts_length_le (checkAttack_eq_none_iff.1 hc).atMostTwo)
  | validate =>
    obtain ⟨r, hr, rfl⟩ | ⟨-, rfl⟩ := checked_eq_next_iff.1 hx
    · exact h.after_complete (checkCipher_listed hr).1
    · exact h.after_complete rfl

/-- Settles O37: each of the things that `step_cases` lists keeps the invariant. -/
theorem everyStepKeepsTheInvariant : Obligations.EveryStepKeepsTheInvariant := by
  intro s t h hstep
  obtain ⟨rest, -, rfl⟩ | ⟨-, -, -, ⟨i, -, hx⟩ | ⟨e, -, rfl⟩⟩ | ⟨hq, hdue, rfl⟩ := step_cases hstep
  · exact invariant_resetWith _ _ _
  · exact h.after_exec hx
  · exact h.after_complete (illegalReport_listed e s.cmdPending)
  · exact h.after_hostTurn hdue hq

end Sys2Proof.Machine
end

section
/-! PROOFS. What the decoder does with every word (spec/30_encoding.md R100, R103 to R111): the opcode map's rows against its
branches, and a legal word against the word of its command. -/

namespace Sys2Proof

/-- The reserved bits of a row: those its mask fixes above OPC (R103, R106). -/
def OpcodeRow.reserved (row : OpcodeRow) : Word := row.mask ^^^ 0x000000FF#32

/-- A word matches a mask that covers its low byte when OPC and the reserved bits are as the pattern says. -/
theorem masked_eq_iff {w mask : Word} {opc : BitVec 8} (hmask : mask.extractLsb' 0 8 = 0xFF#8) :
    w &&& mask = opc.setWidth 32 ↔ opcField w = opc ∧ w &&& (mask ^^^ 0x000000FF#32) = 0#32 := by
  have low : ∀ k < 8, mask.getLsbD k = true := fun k hk => by
    have ones : ∀ k < 8, (0xFF#8).getLsbD k = true := by decide
    simpa [hk, ← hmask, -BitVec.getLsbD_eq_getElem] using ones k hk
  have lowByte : ∀ k < 32, (0x000000FF#32).getLsbD k = decide (k < 8) := by decide
  -- Below bit 8 the mask keeps the bit and the pattern has OPC's; above it the pattern has 0, and the mask is the reserved bits.
  simp only [opcField, BitVec.eq_of_getLsbD_eq_iff, BitVec.getLsbD_and, BitVec.getLsbD_xor,
    BitVec.getLsbD_setWidth, BitVec.getLsbD_extractLsb', BitVec.getLsbD_zero]
  grind

/-- The two ways to read a row agree: match and mask, or opcode and reserved bits (R103, R106). -/
theorem row_matches_iff {row : OpcodeRow} (hrow : row ∈ opcodeMap) (w : Word) :
    w &&& row.mask = row.matchBits ↔ opcField w = row.opc ∧ w &&& row.reserved = 0#32 := by
  have shape : ∀ row ∈ opcodeMap,
      row.mask.extractLsb' 0 8 = 0xFF#8 ∧ row.matchBits = row.opc.setWidth 32 := by decide
  obtain ⟨hmask, hmatch⟩ := shape row hrow
  rw [hmatch]
  exact masked_eq_iff hmask

theorem assignedOpcode_iff {w : Word} : assignedOpcode w = true ↔ ∃ row ∈ opcodeMap, opcField w = row.opc := by
  simp [assignedOpcode, opcField]

theorem wellFormedWord_iff {w : Word} :
    wellFormedWord w = true ↔ ∃ row ∈ opcodeMap, opcField w = row.opc ∧ w &&& row.reserved = 0#32 := by
  unfold wellFormedWord
  rw [List.any_eq_true]
  refine exists_congr fun row => and_congr_right fun hrow => ?_
  rw [decide_eq_true_iff, row_matches_iff hrow]

/-- The decoder's branch for a row tests the row's reserved bits (R103). -/
theorem decode_of_row {row : OpcodeRow} (hrow : row ∈ opcodeMap) {w : Word} (hopc : opcField w = row.opc) :
    ∃ i, decode w = withReserved w row.reserved i := by
  simp only [opcodeMap, List.mem_cons, List.not_mem_nil, or_false] at hrow
  obtain rfl | rfl | rfl | rfl | rfl | rfl | rfl := hrow <;>
    (simp only [decode, hopc]; exact ⟨_, rfl⟩)

theorem decode_of_unassigned {w : Word} (h : assignedOpcode w = false) : decode w = .error .unassignedOpcode := by
  have hne : ∀ row ∈ opcodeMap, opcField w ≠ row.opc := fun row hrow ho =>
    absurd (assignedOpcode_iff.2 ⟨row, hrow, ho⟩) (by simp [h])
  simp only [opcodeMap, List.mem_cons, List.not_mem_nil, or_false, ne_eq, forall_eq_or_imp, forall_eq] at hne
  simp [decode, hne]

/-- The opcode of a word selects one row of the map (R106). -/
theorem row_unique {row row' : OpcodeRow} (hrow : row ∈ opcodeMap) (hrow' : row' ∈ opcodeMap)
    (h : row.opc = row'.opc) : row = row' := by
  have distinct : ∀ row ∈ opcodeMap, ∀ row' ∈ opcodeMap, row.opc = row'.opc → row = row' := by decide
  exact distinct row hrow row' hrow' h

/-- The decoder sorts every word by the opcode map (R103, R106, R108). -/
theorem decode_sorts (w : Word) :
    (assignedOpcode w = false ∧ wellFormedWord w = false ∧ decode w = .error .unassignedOpcode) ∨
    (assignedOpcode w = true ∧ wellFormedWord w = false ∧ decode w = .error .reservedBit) ∨
    (assignedOpcode w = true ∧ wellFormedWord w = true ∧ ∃ i, decode w = .ok i) := by
  cases ha : assignedOpcode w with
  | false =>
    have hw : wellFormedWord w = false := Bool.eq_false_iff.2 fun hw => by
      obtain ⟨row, hrow, hopc, -⟩ := wellFormedWord_iff.1 hw
      exact absurd (assignedOpcode_iff.2 ⟨row, hrow, hopc⟩) (by simp [ha])
    exact .inl ⟨rfl, hw, decode_of_unassigned ha⟩
  | true =>
    obtain ⟨row, hrow, hopc⟩ := assignedOpcode_iff.1 ha
    obtain ⟨i, hi⟩ := decode_of_row hrow hopc
    cases hw : wellFormedWord w with
    | true =>
      obtain ⟨row', hrow', hopc', hres⟩ := wellFormedWord_iff.1 hw
      obtain rfl := row_unique hrow hrow' (hopc.symm.trans hopc')
      exact .inr (.inr ⟨rfl, rfl, i, hi.trans (withReserved_eq_ok_iff.2 ⟨hres, rfl⟩)⟩)
    | false =>
      have hres : w &&& row.reserved ≠ 0#32 := fun hres =>
        absurd (wellFormedWord_iff.2 ⟨row, hrow, hopc, hres⟩) (by simp [hw])
      exact .inr (.inl ⟨rfl, rfl, hi.trans (withReserved_eq_error_iff.2 ⟨hres, rfl⟩)⟩)

/-- Settles O3: in each of the three sorts of word, two of the clauses' sides are false. -/
theorem decodeClassifiesEveryWord : Obligations.DecodeClassifiesEveryWord := by
  intro w
  obtain ⟨ha, hw, hd⟩ | ⟨ha, hw, hd⟩ | ⟨ha, hw, i, hd⟩ := decode_sorts w <;> simp [ha, hw, hd]

/-- Two words agree on a field's bits when they agree on the field. -/
theorem getLsbD_eq_of_field {u w : Word} {i n k : Nat} (h : u.extractLsb' i n = w.extractLsb' i n)
    (hlo : i ≤ k) (hhi : k < i + n) : u.getLsbD k = w.getLsbD k := by
  have := congrArg (fun v => v.getLsbD (k - i)) h
  simpa [BitVec.getLsbD_extractLsb', show k - i < n by omega, show i + (k - i) = k by omega] using this

/-- Two words agree on a bit that a mask reserves in both. -/
theorem getLsbD_eq_of_reserved {u w m : Word} (hu : u &&& m = 0#32) (hw : w &&& m = 0#32) {k : Nat}
    (hk : m.getLsbD k = true) : u.getLsbD k = w.getLsbD k := by
  have clear {v : Word} (h : v &&& m = 0#32) : v.getLsbD k = false := by
    have := congrArg (fun v => v.getLsbD k) h
    simpa [hk, -BitVec.getLsbD_eq_getElem] using this
  rw [clear hu, clear hw]

/-- Two words with the reserved bits 0 are equal when they agree on the others. -/
theorem word_ext_reserved {u w m : Word} (hu : u &&& m = 0#32) (hw : w &&& m = 0#32)
    (h : ∀ k < 32, m.getLsbD k = false → u.getLsbD k = w.getLsbD k) : u = w := by
  apply BitVec.eq_of_getLsbD_eq
  intro k hk
  cases hm : m.getLsbD k with
  | true => exact getLsbD_eq_of_reserved hu hw hm
  | false => exact h k hk hm

/-- A word whose only field is OPC is determined by it (R106). -/
theorem word_ext_opc {u w : Word} (hu : u &&& 0xFFFFFF00#32 = 0#32) (hw : w &&& 0xFFFFFF00#32 = 0#32)
    (ho : opcField u = opcField w) : u = w := by
  have free : ∀ k < 32, (0xFFFFFF00#32).getLsbD k = false → k < 8 := by decide
  refine word_ext_reserved hu hw fun k hk hm => ?_
  have := free k hk hm
  exact getLsbD_eq_of_field ho (by omega) (by omega)

/-- An ENCRYPT word is determined by OPC and PT (R104). -/
theorem word_ext_encrypt {u w : Word} (hu : u &&& 0x0000FF00#32 = 0#32) (hw : w &&& 0x0000FF00#32 = 0#32)
    (ho : opcField u = opcField w) (hp : ptField u = ptField w) : u = w := by
  have free : ∀ k < 32, (0x0000FF00#32).getLsbD k = false → k < 8 ∨ 16 ≤ k := by decide
  refine word_ext_reserved hu hw fun k hk hm => ?_
  obtain h8 | h16 := free k hk hm
  · exact getLsbD_eq_of_field ho (by omega) (by omega)
  · exact getLsbD_eq_of_field hp h16 (by omega)

/-- An ATTACK_STEP word is determined by OPC, TGT and FOLD (R105). -/
theorem word_ext_attackStep {u w : Word} (hu : u &&& 0xFFFFE000#32 = 0#32) (hw : w &&& 0xFFFFE000#32 = 0#32)
    (ho : opcField u = opcField w) (ht : tgtField u = tgtField w) (hf : foldField u = foldField w) : u = w := by
  have free : ∀ k < 32, (0xFFFFE000#32).getLsbD k = false → k < 8 ∨ (8 ≤ k ∧ k < 12) ∨ k = 12 := by decide
  refine word_ext_reserved hu hw fun k hk hm => ?_
  obtain h8 | ⟨h8, h12⟩ | rfl := free k hk hm
  · exact getLsbD_eq_of_field ho (by omega) (by omega)
  · exact getLsbD_eq_of_field ht h8 (by omega)
  · exact hf

/-- Settles O2: the word and its command's word have the same fields, and the reserved bits 0, in each branch of the decoder. -/
theorem decodedWordIsItsEncoding : Obligations.DecodedWordIsItsEncoding := by
  intro w i h
  unfold decode at h
  split_ifs at h with h1 h2 h3 h4 h5 h6 h7 <;> obtain ⟨hres, rfl⟩ := withReserved_eq_ok_iff.1 h
  · obtain ⟨hopc, hpt, hzero⟩ := fields_encode_encrypt (ptField w)
    exact word_ext_encrypt hzero hres (hopc.trans h1.symm) hpt
  · exact word_ext_opc rfl hres h2.symm
  · exact word_ext_opc rfl hres h3.symm
  · exact word_ext_opc rfl hres h4.symm
  · exact word_ext_opc rfl hres h5.symm
  · obtain ⟨hopc, htgt, hfold, hzero⟩ := fields_encode_attackStep (tgtField w) (foldField w)
    exact word_ext_attackStep hzero hres (hopc.trans h6.symm) htgt hfold
  · exact word_ext_opc rfl hres h7.symm

/-- Settles O4: the decoder run on each of the eight words. -/
theorem sampleWordsOfEachRow : Obligations.SampleWordsOfEachRow := by
  unfold Obligations.SampleWordsOfEachRow
  decide

/-- ENCRYPT's word as R111 writes it. -/
theorem encode_encrypt (pt : Block) : encode (.encrypt pt) = (pt.setWidth 32 <<< 16) ||| 0x01#32 := by
  change (pt ++ 0x0001#16 : Word) = _
  rw [BitVec.append_def, BitVec.shiftLeftZeroExtend_eq]
  rfl

/-- ATTACK_STEP's word as R111 writes it. -/
theorem encode_attackStep : ∀ (tgt : Nibble) (fold : Bool), encode (.attackStep tgt fold) =
    ((if fold then 1#32 else 0#32) <<< 12) ||| (tgt.setWidth 32 <<< 8) ||| 0x06#32 := by decide

/-- Settles O5: the mnemonics and the five constants by definition, the two words with operands by their lemmas. -/
theorem mnemonicsAndTheirWords : Obligations.MnemonicsAndTheirWords := by
  exact ⟨fun pt => ⟨rfl, encode_encrypt pt⟩, ⟨rfl, rfl⟩, ⟨rfl, rfl⟩, ⟨rfl, rfl⟩, ⟨rfl, rfl⟩,
    fun tgt fold => ⟨rfl, encode_attackStep tgt fold⟩, rfl, rfl⟩

end Sys2Proof
end

section
/-! PROOFS. The trial key nibble by nibble (spec/30_encoding.md R105; spec/42_attack_engine.md R191 to R194). -/

namespace Sys2Proof.Machine

/-- Placing digits at nibbles other than `j` leaves nibble `j` (R193). -/
theorem nib_foldl_setnib_other {j : Nat} (hj : j < 4) (place : Nat → Nat) (digit : Nat → Nibble) :
    ∀ (ks : List Nat) (acc : Block), (∀ k ∈ ks, place k < 4 ∧ j ≠ place k) →
      nib (ks.foldl (fun acc k => setnib acc (place k) (digit k)) acc) j = nib acc j
  | [], _, _ => rfl
  | k :: ks, acc, h => by
    obtain ⟨hk, hne⟩ := h k (by simp)
    rw [List.foldl_cons, nib_foldl_setnib_other hj place digit ks _ fun m hm => h m (by simp [hm]),
      nib_setnib acc _ hk hj, if_neg hne]

/-- The target nibbles are the nibbles whose TGT bit is 1 (R105, R191). -/
theorem mem_targetNibbles_iff {tgt : Nibble} {j : Nat} :
    j ∈ targetNibbles tgt ↔ j < 4 ∧ tgt.getLsbD (3 - j) = true := by
  have mem : j ∈ [0, 1, 2, 3] ↔ j < 4 := by simp; omega
  rw [targetNibbles, List.mem_filter, mem, isTarget]

/-- A candidate's bits stand in the target nibbles only (R193). -/
theorem nib_spread_of_not_target {tgt : Nibble} {j : Nat} (hj : j < 4) (ht : tgt.getLsbD (3 - j) = false)
    (v : BitVec 8) : nib (spread tgt v) j = 0#4 := by
  refine (nib_foldl_setnib_other hj _ _ _ _ fun k hk => ?_).trans (nib_zero j)
  have hlt : k < (targetNibbles tgt).length := List.mem_range.1 hk
  have hmem : (targetNibbles tgt).getD k 0 ∈ targetNibbles tgt := by
    rw [List.getD_eq_getElem _ _ hlt]
    exact List.getElem_mem hlt
  obtain ⟨h4, htrue⟩ := mem_targetNibbles_iff.1 hmem
  refine ⟨h4, fun hne => ?_⟩
  rw [← hne, ht] at htrue
  cases htrue

/-- One target nibble takes the candidate's low digit (R193). -/
theorem spread_of_one_target {tgt : Nibble} {j : Nat} (h : targetNibbles tgt = [j]) (v : BitVec 8) :
    spread tgt v = setnib 0#16 j (v.extractLsb' 0 4) := by
  simp only [spread, h]
  rfl

/-- Two target nibbles take the candidate's digits, high digit first (R193). -/
theorem spread_of_two_targets {tgt : Nibble} {j k : Nat} (h : targetNibbles tgt = [j, k]) (v : BitVec 8) :
    spread tgt v = setnib (setnib 0#16 j (v.extractLsb' 4 4)) k (v.extractLsb' 0 4) := by
  simp only [spread, h]
  rfl

/-- The only target nibble (R191). -/
theorem targetNibbles_of_popcount_one : ∀ tgt : Nibble, ∀ j < 4, popcount tgt = 1 →
    tgt.getLsbD (3 - j) = true → targetNibbles tgt = [j] := by decide

/-- The two target nibbles, in ascending order (R191). -/
theorem targetNibbles_of_popcount_two : ∀ tgt : Nibble, ∀ j < 4, ∀ k < 4,
    popcount tgt = 2 → j < k ∧ tgt.getLsbD (3 - j) = true ∧ tgt.getLsbD (3 - k) = true → targetNibbles tgt = [j, k] := by decide

/-- The trial key nibble by nibble: the candidate's in the targets, KNOWN_VAL's elsewhere (R194). -/
theorem nib_trialKey (known : Block) (tgt : Nibble) (v : BitVec 8) {j : Nat} (hj : j < 4) :
    nib (trialKey known tgt v) j = if tgt.getLsbD (3 - j) then nib (spread tgt v) j else nib known j := by
  rw [trialKey, nib_or, nib_and, nib_not _ hj, nib_targetMask tgt hj]
  cases ht : tgt.getLsbD (3 - j) with
  | true =>
    have cleared : ∀ a b : Nibble, a &&& ~~~0xF#4 ||| b = b := by decide
    exact cleared _ _
  | false =>
    have kept : ∀ a : Nibble, a &&& ~~~0#4 ||| 0#4 = a := by decide
    rw [nib_spread_of_not_target hj ht]
    exact kept _

/-- Settles O53: the targets' nibbles of the trial key are those of the placed digits. -/
theorem trialKeyPlacesTheCandidate : Obligations.TrialKeyPlacesTheCandidate := by
  intro known tgt v j hj
  rw [nib_trialKey known tgt v hj]
  refine ⟨fun ht => if_neg (by simp [ht]), fun ht hone => ?_, fun ht htwo k hk hlt htk => ?_⟩
  · rw [if_pos ht, spread_of_one_target (targetNibbles_of_popcount_one tgt j hj hone ht), nib_setnib _ _ hj hj,
      if_pos rfl]
  · rw [nib_trialKey known tgt v hk, if_pos ht, if_pos htk,
      spread_of_two_targets (targetNibbles_of_popcount_two tgt j hj k hk htwo ⟨hlt, ht, htk⟩)]
    constructor
    · rw [nib_setnib _ _ hk hj, if_neg (by omega), nib_setnib _ _ hj hj, if_pos rfl]
    · rw [nib_setnib _ _ hk hk, if_pos rfl]

end Sys2Proof.Machine
end

section
/-! PROOFS. From a CMD write to the completion (spec/30_encoding.md R101 to R103, R107; spec/60_exceptions.md R260 to R262): acceptance,
the engine steps, and what every completion leaves. -/

namespace Sys2Proof.Machine

/-- Settles O29: both cases of `exec_cases` are a completion with a listed report. -/
theorem everyCommandEndsInAListedOutcome : Obligations.EveryCommandEndsInAListedOutcome := by
  intro i s
  obtain ⟨r, -, hlisted, hx⟩ | ⟨r, u, -, hlisted, hx, hu⟩ := exec_cases i s
  · exact ⟨_, hx, rfl, rfl, rfl, hlisted⟩
  · refine ⟨_, hx, rfl, rfl, ?_, hlisted⟩
    rw [hu]
    rfl

/-- Settles O31: a fatal error writes ERR, BUSY and DONE, and a completed command its results besides. -/
theorem commandsLeaveTheHostsRegisters : Obligations.CommandsLeaveTheHostsRegisters := by
  intro i s t h
  obtain ⟨r, -, -, hx⟩ | ⟨r, u, -, -, hx, hu⟩ := exec_cases i s <;>
    obtain rfl := Host.Outcome.next.inj (h.symm.trans hx)
  · simp
  · rw [hu]
    simp

/-- A legal word's completion is its command's meaning (R102, R103). -/
theorem completion_of_ok {s : State} {i : Instr} (h : decode s.cmdPending = .ok i) : completion s = exec i s := by
  simp only [completion, h]

/-- An illegal word's completion is ILLEGAL_COMMAND (R103). -/
theorem completion_of_error {s : State} {e : IllegalWord} (h : decode s.cmdPending = .error e) :
    completion s = .next (completeIllegal e s) := by
  simp only [completion, h]

/-- Settles O7: what the decoder answers for each sort of word decides the completion. -/
theorem illegalWordEndsInIllegalCommand : Obligations.IllegalWordEndsInIllegalCommand := by
  intro s
  obtain ⟨unassigned, reserved, legal⟩ := decodeClassifiesEveryWord s.cmdPending
  refine ⟨fun ha => completion_of_error (unassigned.1 ha),
    fun ha hw => completion_of_error (reserved.1 ⟨ha, hw⟩), fun hw => ?_⟩
  obtain ⟨i, hd⟩ := legal.1 hw
  exact ⟨i, hd, completion_of_ok hd⟩

/-- Every completion, of a legal word or not, ends the command: BUSY = 0, DONE = 1, and the opcode in LAST_OP (R102, R262). -/
theorem completion_ends (s : State) : ∃ t, completion s = .next t ∧ t.busy = false ∧ t.done = true ∧
    t.err.lastOp = s.cmdPending.extractLsb' 0 8 := by
  cases hd : decode s.cmdPending with
  | ok i =>
    obtain ⟨t, hx, hb, hdone, hop, -⟩ := everyCommandEndsInAListedOutcome i s
    exact ⟨t, (completion_of_ok hd).trans hx, hb, hdone, hop⟩
  | error e => exact ⟨_, completion_of_error hd, rfl, rfl, rfl⟩

/-- Settles O9: the two things a step does both answer a next state. -/
theorem everyStepAnswersNext : Obligations.EveryStepAnswersNext := by
  intro s
  unfold step
  split
  · obtain ⟨t, ht, -⟩ := completion_ends s
    exact ⟨t, ht⟩
  · exact ⟨_, rfl⟩

/-- Settles O10: CMD's rule is acceptance, and the write lock covers CMD (R78, R101). -/
theorem cmdWriteIssuesTheWordOnlyWhileIdle : Obligations.CmdWriteIssuesTheWordOnlyWhileIdle := by
  intro s w
  refine ⟨fun hb => ⟨Config.latency s.draws w, Nat.le_add_left 1 _, ?_⟩, fun hb => ?_⟩
  · exact writeWindow_reg_idle hb .cmd w
  · exact writeWindow_busy hb (by decide) (by decide) w

/-- The word that `withCommandDue` puts in flight is due, and no reset comes before it (log 2). -/
theorem step_withCommandDue (w : Word) (s : State) : step (withCommandDue w s) = completion (withCommandDue w s) := by
  refine step_of_due rfl (le_refl 1) ?_
  show (if resetNext s then HostAction.idle :: s.hostQueue else s.hostQueue).head? ≠ some .reset
  cases hr : resetNext s with
  | true => simp
  | false => simpa using resetNext_eq_false_iff.1 hr

/-- The low 32 bits of a word are the word. -/
theorem withFetchWord_toNat (s : State) (w : Word) : s.withFetchWord 32 w.toNat = withCommandDue w s := by
  rw [State.withFetchWord, Nat.mod_eq_of_lt w.isLt, BitVec.ofNat_toNat, BitVec.setWidth_eq]

/-- Settles O6, for a command in flight and for one that log 2 puts in flight. -/
theorem stepRunsTheCommandInFlight : Obligations.StepRunsTheCommandInFlight := by
  refine ⟨fun s hb hr hq => ?_, fun s i _ => ?_⟩
  · have hstep := step_of_due hb hr hq
    exact ⟨hstep, fun i _ hd => hstep.trans (completion_of_ok hd)⟩
  · rw [withFetchWord_toNat, step_withCommandDue]
    exact completion_of_ok (decode_encode i)

/-- While a command has further engine steps to go and no reset comes, a step takes one of them and leaves the command and ERR
(R85, R305). -/
theorem step_in_flight {s : State} {n : Nat} (hb : s.busy = true) (hr : s.remaining = n + 2)
    (hq : HostAction.reset ∉ s.hostQueue) :
    ∃ t, step s = .next t ∧ t.busy = true ∧ t.remaining = n + 1 ∧ HostAction.reset ∉ t.hostQueue ∧
      t.cmdPending = s.cmdPending ∧ t.err = s.err := by
  have hhead : s.hostQueue.head? ≠ some .reset := fun h => hq (List.mem_of_head? h)
  obtain ⟨en, done, viol, d, l, ht⟩ := hostTurn_busy_frame hb hhead
  refine ⟨_, step_of_not_due fun _ => by omega, ?_⟩
  rw [ht]
  exact ⟨hb, by simp [hr], fun h => hq (List.mem_of_mem_tail h), rfl, rfl⟩

theorem run_succ {s t : State} (h : step s = .next t) (n : Nat) : run (n + 1) s = run n t := by
  simp only [run, h]

/-- Settles O11, by induction on the engine steps left: one step keeps the command in flight, and the last completes it. -/
theorem everyAcceptedCommandCompletes : Obligations.EveryAcceptedCommandCompletes := by
  intro s n
  induction n generalizing s with
  | zero =>
    intro hb hr hq
    refine ⟨fun k hk => ⟨s, by rw [Nat.le_zero.1 hk]; rfl, hb, rfl, rfl⟩, ?_⟩
    obtain ⟨t, ht, hend⟩ := completion_ends s
    have hstep : step s = .next t :=
      (step_of_due hb hr.le fun h => hq (List.mem_of_head? h)).trans ht
    exact ⟨t, run_succ hstep 0, hend⟩
  | succ n ih =>
    intro hb hr hq
    obtain ⟨t, hstep, htb, htr, htq, hcmd, herr⟩ := step_in_flight hb hr hq
    obtain ⟨during, final⟩ := ih t htb htr htq
    rw [hcmd, herr] at during
    rw [hcmd] at final
    refine ⟨fun k hk => ?_, by rw [run_succ hstep]; exact final⟩
    cases k with
    | zero => exact ⟨s, rfl, hb, rfl, rfl⟩
    | succ k =>
      rw [run_succ hstep]
      exact during k (by omega)

end Sys2Proof.Machine
end

section
/-! PROOFS. The cipher engine (spec/40_cipher_engine.md R130 to R143): the first failing check decides how a cipher command ends, and on a
valid configuration the layers are one to one and compute the four rounds; with them BUILD_LAT's own check of the S-box (R138). -/

namespace Sys2Proof.Machine

open Sys2Proof.Spec

/-- ENCRYPT, GEN_CODEBOOK and VALIDATE end at once with the error CHECK_CIPHER reports (R141, R142, R143). -/
theorem exec_of_checkCipher_eq_some {s : State} {i : Instr} {r : Report}
    (hi : (∃ pt, i = .encrypt pt) ∨ i = .genCodebook ∨ i = .validate) (h : checkCipher s.cfg = some r) :
    exec i s = .next (endedWith s r.code r.sub r.info) := by
  rw [← complete_eq_endedWith]
  obtain ⟨pt, rfl⟩ | rfl | rfl := hi
  · simp [exec, execEncrypt, h]
  · simp [exec, execGenCodebook, h]
  · simp [exec, execValidate, h]

/-- ENCRYPT of a valid configuration completes with the ciphertext (R141). -/
theorem exec_encrypt_of_valid {s : State} (h : CipherValid s.cfg) (pt : Block) :
    exec (.encrypt pt) s = .next (complete .ok { s with encResult := encryptBlock s.cfg pt }) := by
  simp [exec, execEncrypt, checkCipher_eq_none_iff.2 h]

/-- GEN_CODEBOOK of a valid configuration completes with the codebook of the encryption function (R142). -/
theorem exec_genCodebook_of_valid {s : State} (h : CipherValid s.cfg) :
    exec .genCodebook s = .next (complete .ok
      { s with
        cb := Ram.tabulate 16 (encryptBlock s.cfg)
        cbValid := true
        cbLoading := false
        loadCount := 0#17
        loadOvf := false
        loadOrd := false }) := by
  simp [exec, execGenCodebook, checkCipher_eq_none_iff.2 h]

/-- VALIDATE of a valid configuration completes and writes no result (R143). -/
theorem exec_validate_of_valid {s : State} (h : CipherValid s.cfg) : exec .validate s = .next (complete .ok s) := by
  simp [exec, execValidate, checkCipher_eq_none_iff.2 h]

/-! The checks, in the order R137 and R140 give them. -/

section Checks

variable {c : CipherConfig}

theorem checkSbox_of_sbox_missing {y : Nibble} (h : LeastMissing c.sbox y) :
    checkSbox c = some (invalidSbox 1#4 y) := by
  simp [checkSbox, missingEntry_eq_some_iff.2 h]

theorem checkSbox_of_sboxi_missing {y : Nibble} (hs : c.sbox.Bijective) (h : LeastMissing c.sboxi y) :
    checkSbox c = some (invalidSbox 2#4 y) := by
  simp [checkSbox, missingEntry_eq_none_iff.2 hs, missingEntry_eq_some_iff.2 h]

theorem checkSbox_of_mismatch {x : Nibble} (hs : c.sbox.Bijective) (hi : c.sboxi.Bijective)
    (hx : c.sboxi.entry (c.sbox.entry x) ≠ x)
    (hlt : ∀ z : Nibble, z.toNat < x.toNat → c.sboxi.entry (c.sbox.entry z) = z) :
    checkSbox c = some (invalidSbox 3#4 x) := by
  simp [checkSbox, missingEntry_eq_none_iff.2 hs, missingEntry_eq_none_iff.2 hi,
    inverseMismatch_eq_some_iff.2 ⟨hx, hlt⟩]

/-- An S-box error comes before the P-box check (R140). -/
theorem checkCipher_of_checkSbox {r : Report} (h : checkSbox c = some r) : checkCipher c = some r := by
  simp [checkCipher, h]

theorem checkCipher_of_pbox_missing {y : Nibble} (hp : SboxPair c) (h : LeastMissing c.pbox y) :
    checkCipher c = some ⟨.invalidPermutation, 1#4, y.setWidth 16⟩ := by
  simp [checkCipher, checkPbox, checkSbox_eq_none_iff.2 hp, missingEntry_eq_some_iff.2 h]

/-- A table's left inverse is its right inverse, because every value is an entry (R137). -/
theorem SboxPair.sbox_sboxi (h : SboxPair c) (y : Nibble) : c.sbox.entry (c.sboxi.entry y) = y := by
  obtain ⟨hs, -, hinv⟩ := h
  obtain ⟨x, rfl⟩ := hs y
  rw [hinv]

end Checks

/-- Settles O38: each clause names the first failing check, and the three commands end with its report. -/
theorem cipherCommandsReportTheFirstFailingCheck : Obligations.CipherCommandsReportTheFirstFailingCheck := by
  refine ⟨fun s i hi => ⟨fun y h => ?_, fun y hs h => ?_, fun x hs hsi hx hlt => ?_, fun y hp h => ?_⟩,
    fun c hp => hp.sbox_sboxi⟩
  · exact exec_of_checkCipher_eq_some hi (checkCipher_of_checkSbox (checkSbox_of_sbox_missing h))
  · exact exec_of_checkCipher_eq_some hi (checkCipher_of_checkSbox (checkSbox_of_sboxi_missing hs h))
  · exact exec_of_checkCipher_eq_some hi (checkCipher_of_checkSbox (checkSbox_of_mismatch hs hsi hx hlt))
  · exact exec_of_checkCipher_eq_some hi (checkCipher_of_pbox_missing hp h)

/-- Settles O39: with no check failing, VALIDATE is the bare completion (R143). -/
theorem validateOfAValidConfiguration : Obligations.ValidateOfAValidConfiguration :=
  fun _ h => exec_validate_of_valid h

/-- Settles O46: CHECK_SBOX_FWD reads the forward table only (R138). -/
theorem buildLatReportsAnInvalidSbox : Obligations.BuildLatReportsAnInvalidSbox := by
  intro s y h
  have hcheck : checkSboxFwd s.cfg = some (invalidSbox 1#4 y) := by
    simp [checkSboxFwd, missingEntry_eq_some_iff.2 h]
  simp [exec, execBuildLat, hcheck, invalidSbox, complete_eq_endedWith]

/-! The layers against what R130 to R134 say of them. -/

theorem substituted_substitute (t : Table) (v : Block) : Substituted t v (substitute t v) :=
  fun _ hj => nib_substitute t v hj

theorem permuted_permute {pbox : Table} (h : pbox.Bijective) (v : Block) : Permuted pbox v (permute pbox v) :=
  fun i => pos_permute h v i

/-- Two Blocks that agree at the position of every nibble's number are equal (R8, R29). -/
theorem block_ext_pos_nibble {v w : Block} (h : ∀ i : Nibble, pos v i.toNat = pos w i.toNat) : v = w :=
  block_ext_pos fun i hi => by
    simpa [Nat.mod_eq_of_lt hi] using h (BitVec.ofNat 4 i)

/-- PERMINV undoes PERM: both move between position i and position PBOX[i] (R133). -/
theorem permuteInv_permute {pbox : Table} (h : pbox.Bijective) (v : Block) :
    permuteInv pbox (permute pbox v) = v :=
  block_ext_pos_nibble fun i => by rw [pos_permuteInv, pos_permute h]

/-- Settles O43, position by position. -/
theorem permutationAndItsInverse : Obligations.PermutationAndItsInverse :=
  fun pbox v h => ⟨permuted_permute h v, pos_permuteInv pbox v, permuteInv_permute h v⟩

/-- The encryption function is the four rounds of R134, its intermediate blocks the layers' values. -/
theorem encrypts_encryptBlock {c : CipherConfig} (h : c.pbox.Bijective) (p : Block) :
    Encrypts c p (encryptBlock c p) :=
  ⟨_, _, _, _, _, _, _,
    substituted_substitute _ _, permuted_permute h _,
    substituted_substitute _ _, permuted_permute h _,
    substituted_substitute _ _, permuted_permute h _,
    substituted_substitute _ _, rfl⟩

/-- Settles O40: ENC_RESULT takes the encryption function's value (R141). -/
theorem encryptComputesTheFourRounds : Obligations.EncryptComputesTheFourRounds :=
  fun s pt h => ⟨encryptBlock s.cfg pt, encrypts_encryptBlock h.2 pt, exec_encrypt_of_valid h pt⟩

/-- Settles O41: each entry of the codebook is the encryption function's value (R142). -/
theorem genCodebookEncryptsEveryPlaintext : Obligations.GenCodebookEncryptsEveryPlaintext := by
  intro s h
  refine ⟨_, exec_genCodebook_of_valid h, fun p => ?_, rfl⟩
  rw [complete_cb, Ram.get_tabulate]
  exact encrypts_encryptBlock h.2 p

/-! Each layer is one to one, so the encryption function is (R136). -/

theorem SboxPair.substitute_injective {c : CipherConfig} (h : SboxPair c) : Function.Injective (substitute c.sbox) :=
  Function.LeftInverse.injective (substitute_substitute h.2.2)

theorem permute_injective {pbox : Table} (h : pbox.Bijective) : Function.Injective (permute pbox) :=
  Function.LeftInverse.injective (permuteInv_permute h)

theorem fullRound_injective {c : CipherConfig} (h : CipherValid c) (k : Block) :
    Function.Injective fun w => fullRound c w k :=
  fun _ _ hvw => (BitVec.xor_left_inj _).1 (h.1.substitute_injective (permute_injective h.2 hvw))

theorem lastRoundInput_injective {c : CipherConfig} (h : CipherValid c) : Function.Injective (lastRoundInput c) :=
  fun _ _ hpq => fullRound_injective h c.k1 (fullRound_injective h c.k2 (fullRound_injective h c.k3
    ((BitVec.xor_left_inj _).1 hpq)))

theorem encryptBlock_injective {c : CipherConfig} (h : CipherValid c) : Function.Injective (encryptBlock c) :=
  fun _ _ hpq => lastRoundInput_injective h (h.1.substitute_injective ((BitVec.xor_left_inj _).1 hpq))

/-- Settles O42: the codebook is the encryption function, one to one and so onto the finite set of blocks (R136). -/
theorem generatedCodebookIsABijection : Obligations.GeneratedCodebookIsABijection := by
  intro s t h hx
  obtain rfl := Host.Outcome.next.inj ((exec_genCodebook_of_valid h).symm.trans hx)
  simp only [complete_cb, Ram.get_tabulate]
  have hinj := encryptBlock_injective h
  exact ⟨fun _ _ hpq => hinj hpq, Finite.surjective_of_injective hinj⟩

/-- SUBINV undoes the last round once K5 is taken off the ciphertext (R136). -/
theorem SboxPair.substitute_encryptBlock {c : CipherConfig} (h : SboxPair c) (p : Block) :
    substitute c.sboxi (encryptBlock c p ^^^ c.k5) = lastRoundInput c p := by
  rw [encryptBlock, BitVec.xor_assoc, BitVec.xor_self, BitVec.xor_zero, substitute_substitute h.2.2]

/-- Settles O44: the partial decryption under K5 is SUBINV of the codebook's entry XOR K5 (R136, R196). -/
theorem partialDecryptionUnderTheTrueKeyIsU4 : Obligations.PartialDecryptionUnderTheTrueKeyIsU4 := by
  refine ⟨fun c p h => (h.substitute_encryptBlock p).symm, fun s p h hcb => ?_⟩
  rw [partialDecrypt, hcb, h.substitute_encryptBlock]

end Sys2Proof.Machine
end

section
/-! PROOFS. The range, the margins and the evenness of LAT entries (spec/41_lat_builder.md R170 to R172), and what ATTACK_STEP
does not read (spec/41_lat_builder.md R175; spec/42_attack_engine.md R190). -/

namespace Sys2Proof.Machine

/-- A LAT entry lies in [-8, 8], whatever the table (R172). -/
theorem latValue_range (t : Table) (a b : Nibble) : -8 ≤ latValue t a b ∧ latValue t a b ≤ 8 := by
  have := latAgreements_le t a b
  unfold latValue
  omega

theorem allNibbles_nodup : allNibbles.Nodup := by decide

/-- The entries of a bijective table are all nibbles, in some order (R137). -/
theorem Table.Bijective.map_entry_perm {t : Table} (h : t.Bijective) : (allNibbles.map t.entry).Perm allNibbles := by
  refine (List.perm_ext_iff_of_nodup (allNibbles_nodup.map fun _ _ => h.injective) allNibbles_nodup).2 fun y => ?_
  obtain ⟨x, hx⟩ := h y
  exact iff_of_true (List.mem_map.2 ⟨x, mem_allNibbles x, hx⟩) (mem_allNibbles y)

/-- Counting over the entries of a bijective table is counting over the nibbles. -/
theorem Table.Bijective.countP_entry {t : Table} (h : t.Bijective) (p : Nibble → Bool) :
    (allNibbles.countP fun x => p (t.entry x)) = allNibbles.countP p := by
  have hperm := h.map_entry_perm.countP_eq p
  rwa [List.countP_map] at hperm

/-- A mask other than 0 gives odd parity to half of the nibbles (R170). -/
theorem countP_maskedParity (m : Nibble) :
    (allNibbles.countP fun x => maskedParity x m) = if m = 0#4 then 0 else 8 := by
  revert m
  decide

/-- Where two tests agree, counted from where each holds and where both hold. -/
theorem countP_beq_add {α : Type} (f g : α → Bool) (l : List α) :
    (l.countP fun x => f x == g x) + l.countP f + l.countP g = l.length + 2 * l.countP fun x => f x && g x := by
  induction l with
  | nil => rfl
  | cons x l ih =>
    simp only [List.countP_cons, List.length_cons]
    cases f x <;> cases g x <;> simp <;> omega

/-- The number of nibbles at which both masked parities of R171 are odd. -/
def bothOdd (t : Table) (a b : Nibble) : Nat :=
  allNibbles.countP fun x => maskedParity x a && maskedParity (t.entry x) b

/-- An entry of a bijective table, from the halves that its two masks select (R171). -/
theorem latValue_of_bijective {t : Table} (h : t.Bijective) (a b : Nibble) :
    latValue t a b =
      8 - (if a = 0#4 then 0 else 8) - (if b = 0#4 then 0 else 8) + 2 * (bothOdd t a b : Int) := by
  have hsum := countP_beq_add (maskedParity · a) (fun x => maskedParity (t.entry x) b) allNibbles
  rw [countP_maskedParity, h.countP_entry (maskedParity · b), countP_maskedParity,
    show allNibbles.length = 16 from rfl] at hsum
  unfold latValue bothOdd
  split_ifs at hsum ⊢ <;> omega

theorem bothOdd_zero_left (t : Table) (b : Nibble) : bothOdd t 0#4 b = 0 := by
  simp [bothOdd, maskedParity]

theorem bothOdd_zero_right (t : Table) (a : Nibble) : bothOdd t a 0#4 = 0 := by
  simp [bothOdd, maskedParity]

/-- Settles O47: a bijective table's entries follow from the halves its masks select (R172). -/
theorem latRangeAndMargins : Obligations.LatRangeAndMargins := by
  refine ⟨latValue_range, fun t h => ⟨?_, fun b hb => ?_, fun a ha => ?_, fun a b => ?_⟩⟩
  · simp [latValue_of_bijective h, bothOdd_zero_left]
  · simp [latValue_of_bijective h, bothOdd_zero_left, hb]
  · simp [latValue_of_bijective h, bothOdd_zero_right, ha]
  · rw [latValue_of_bijective h]
    split_ifs <;> omega

/-- `s` with another cipher configuration, LAT RAM and LAT_VALID. -/
def State.withUnread (c : CipherConfig) (lat : Ram (BitVec 5) 8) (valid : Bool) (s : State) : State :=
  { s with cfg := c, lat := lat, latValid := valid }

/-- A refusal or a completion from states with the fields exchanged has the fields exchanged in its result. -/
theorem checked_withUnread {c : CipherConfig} {lat : Ram (BitVec 5) 8} {valid : Bool} {fault? : Option Report}
    {s done t : State} (h : checked fault? s done = .next t) :
    checked fault? (s.withUnread c lat valid) (done.withUnread c lat valid) = .next (t.withUnread c lat valid) := by
  cases fault? <;> (obtain rfl := Host.Outcome.next.inj h; rfl)

/-- CHECK_SBOX reads SBOX and SBOXI only (R137). -/
theorem checkSbox_congr {c d : CipherConfig} (hs : c.sbox = d.sbox) (hi : c.sboxi = d.sboxi) :
    checkSbox c = checkSbox d := by
  simp only [checkSbox, inverseMismatch, hs, hi]

section Unread

variable {s : State} {c : CipherConfig} (lat : Ram (BitVec 5) 8) (valid : Bool)

/-- The checks of ATTACK_STEP read of the configuration only the S-box pair (R195, R199). -/
theorem checkAttack_withUnread (hs : c.sbox = s.cfg.sbox) (hi : c.sboxi = s.cfg.sboxi) (tgt : Nibble) :
    checkAttack (s.withUnread c lat valid) tgt = checkAttack s tgt := by
  have h : checkSbox (s.withUnread c lat valid).cfg = checkSbox s.cfg := checkSbox_congr hs hi
  rw [checkAttack, h]
  rfl

/-- The partial decryption reads of the configuration only SBOXI (R196). -/
theorem partialDecrypt_withUnread (hi : c.sboxi = s.cfg.sboxi) (key p : Block) :
    partialDecrypt (s.withUnread c lat valid) key p = partialDecrypt s key p :=
  congrArg (substitute · (s.cb.get p ^^^ key)) hi

/-- The relation reads the configuration through the partial decryption alone (R197). -/
theorem relation_withUnread (hi : c.sboxi = s.cfg.sboxi) (key p : Block) :
    relation (s.withUnread c lat valid) key p = relation s key p := by
  rw [relation, partialDecrypt_withUnread lat valid hi]
  rfl

/-- The agreement counts are those of the relation (R198, R199). -/
theorem allCounts_withUnread (hi : c.sboxi = s.cfg.sboxi) (tgt : Nibble) :
    allCounts (s.withUnread c lat valid) tgt = allCounts s tgt := by
  simp only [allCounts, agreementCount, agreementsUnder, relation_withUnread lat valid hi]
  rfl

/-- The results, folded or not, read and write none of the fields exchanged (R202 to R205). -/
theorem foldedResults_withUnread (tgt : Nibble) (folds : Bool) (w : BitVec 8) (counts : List Nat) :
    (if folds then fold tgt w (attackResults tgt folds counts (s.withUnread c lat valid))
      else attackResults tgt folds counts (s.withUnread c lat valid)) =
    (if folds then fold tgt w (attackResults tgt folds counts s)
      else attackResults tgt folds counts s).withUnread c lat valid := by
  cases folds <;> rfl

/-- The decision reads none of the fields exchanged and keeps them (R199, R201). -/
theorem decideStep_withUnread (tgt : Nibble) (foldBit : Bool) (counts : List Nat) :
    decideStep tgt foldBit counts (s.withUnread c lat valid) =
      (decideStep tgt foldBit counts s).withUnread c lat valid :=
  congrArg (complete (attackReport (survivorCount s.atkThresh counts)))
    (foldedResults_withUnread lat valid tgt (foldBit && decide (survivorCount s.atkThresh counts = 1))
      (winner s.atkThresh counts) counts)

/-- ATTACK_STEP carries the fields exchanged along, on every path (R190). -/
theorem exec_attackStep_withUnread (hs : c.sbox = s.cfg.sbox) (hi : c.sboxi = s.cfg.sboxi) {t : State}
    {tgt : Nibble} {foldBit : Bool} (hx : exec (.attackStep tgt foldBit) s = .next t) :
    exec (.attackStep tgt foldBit) (s.withUnread c lat valid) = .next (t.withUnread c lat valid) := by
  change checked _ _ _ = _
  rw [checkAttack_withUnread lat valid hs hi, allCounts_withUnread lat valid hi, decideStep_withUnread]
  exact checked_withUnread hx

end Unread

/-- Settles O56: the refusals, the counts and the decision read none of the fields exchanged (R190). -/
theorem attackNeverReadsKeysPboxOrLat : Obligations.AttackNeverReadsKeysPboxOrLat :=
  fun _ _ _ _ _ lat valid hs hi hx => exec_attackStep_withUnread lat valid hs hi hx

end Sys2Proof.Machine
end

section
/-! PROOFS. The refusals of ATTACK_STEP in their order (spec/42_attack_engine.md R195, R199; spec/60_exceptions.md R266). -/

namespace Sys2Proof.Machine

/-- A failed check ends ATTACK_STEP with its report and no other effect (R199, R263). -/
theorem exec_attackStep_of_checkAttack_eq_some {s : State} {tgt : Nibble} {r : Report} (foldBit : Bool)
    (h : checkAttack s tgt = some r) :
    exec (.attackStep tgt foldBit) s = .next (endedWith s r.code r.sub r.info) := by
  rw [← complete_eq_endedWith]
  simp [exec, execAttackStep, h]

section Checks

variable {s : State} {tgt : Nibble}

/-- CHECK_SBOX comes first (R199). -/
theorem checkAttack_of_checkSbox {r : Report} (h : checkSbox s.cfg = some r) : checkAttack s tgt = some r := by
  simp [checkAttack, h]

/-- The codebook comes second (R199). -/
theorem checkAttack_of_no_codebook (hp : SboxPair s.cfg) (hc : s.cbValid = false) :
    checkAttack s tgt = some ⟨.malformedCodebook, 4#4, 0#16⟩ := by
  simp [checkAttack, checkSbox_eq_none_iff.2 hp, hc]

/-- CHECK_RELATION comes last (R199). -/
theorem checkAttack_eq_checkRelation (hp : SboxPair s.cfg) (hc : s.cbValid = true) :
    checkAttack s tgt = checkRelation s tgt := by
  simp [checkAttack, checkSbox_eq_none_iff.2 hp, hc]

theorem checkRelation_of_no_target (h : tgt = 0#4) : checkRelation s tgt = some (invalidRelation 1#4 0#16) :=
  if_pos h

theorem checkRelation_of_many_targets (h : 2 < popcount tgt) :
    checkRelation s tgt = some (invalidRelation 2#4 (tgt.setWidth 16)) := by
  have hne : tgt ≠ 0#4 := by
    rintro rfl
    exact absurd h (by decide)
  rw [checkRelation, if_neg hne]
  exact if_pos h

/-- The nibble that R195's third test names is the lowest one that is not readable. -/
theorem unreadableNibble_of_lowest {j : Nat} (hj : j < 4) (hbad : ¬ NibbleReadable s tgt j)
    (hlow : ∀ k < j, NibbleReadable s tgt k) : unreadableNibble s tgt = some j := by
  unfold NibbleReadable at hbad hlow
  rw [unreadableNibble, show [0, 1, 2, 3] = List.range 4 from rfl, List.find?_range_eq_some]
  refine ⟨?_, List.mem_range.2 hj, fun k hk => ?_⟩
  · simpa [isTarget, and_assoc] using hbad
  · obtain h | h | h := hlow k hk <;> simp [isTarget, h]

theorem checkRelation_of_unreadable {j : Nat} (h0 : tgt ≠ 0#4) (h2 : popcount tgt ≤ 2) (hj : j < 4)
    (hbad : ¬ NibbleReadable s tgt j) (hlow : ∀ k < j, NibbleReadable s tgt k) :
    checkRelation s tgt = some (invalidRelation 3#4 (BitVec.ofNat 16 j)) := by
  have hcount : ¬ targetCount tgt > Config.maxTargetNibbles := not_lt.2 h2
  rw [checkRelation, if_neg h0, if_neg hcount, unreadableNibble_of_lowest hj hbad hlow]
  rfl

end Checks

/-- Settles O48: each clause makes one check the first that fails, and the step ends with its report. -/
theorem attackStepReportsTheFirstFailingCheck : Obligations.AttackStepReportsTheFirstFailingCheck := by
  intro s tgt fold
  have sboxFails {r : Report} (h : checkSbox s.cfg = some r) :=
    exec_attackStep_of_checkAttack_eq_some fold (checkAttack_of_checkSbox (tgt := tgt) h)
  have relationFails {r : Report} (hp : SboxPair s.cfg) (hc : s.cbValid = true) (h : checkRelation s tgt = some r) :=
    exec_attackStep_of_checkAttack_eq_some fold ((checkAttack_eq_checkRelation hp hc).trans h)
  refine ⟨fun y h => ?_, fun y hs h => ?_, fun x hs hi hx hlt => ?_, fun hp hc => ?_, fun hp hc h => ?_,
    fun hp hc h => ?_, fun j hj hp hc h0 h2 hbad hlow => ?_⟩
  · exact sboxFails (checkSbox_of_sbox_missing h)
  · exact sboxFails (checkSbox_of_sboxi_missing hs h)
  · exact sboxFails (checkSbox_of_mismatch hs hi hx hlt)
  · exact exec_attackStep_of_checkAttack_eq_some fold (checkAttack_of_no_codebook hp hc)
  · exact relationFails hp hc (checkRelation_of_no_target h)
  · exact relationFails hp hc (checkRelation_of_many_targets h)
  · exact relationFails hp hc (checkRelation_of_unreadable h0 h2 hj hbad hlow)

end Sys2Proof.Machine
end

section
/-! PROOFS. What a scored ATTACK_STEP writes: the candidate entries, the decision by the survivors and the known bits
(spec/42_attack_engine.md R196 to R205). -/

namespace Sys2Proof.Machine

open Sys2Proof.Spec

/-- A scored step changes only the attack's results, the known bits, ERR, BUSY and DONE (R102, R199). -/
theorem decideStep_frame (tgt : Nibble) (foldBit : Bool) (counts : List Nat) {s t : State}
    (ht : t = decideStep tgt foldBit counts s) :
    t = { s with
      cand := t.cand
      atkStatus := t.atkStatus
      atkWinner := t.atkWinner
      atkBest := t.atkBest
      atkBestDev := t.atkBestDev
      knownVal := t.knownVal
      knownMask := t.knownMask
      err := t.err
      busy := false
      done := true
      remaining := 0 } := by
  obtain ⟨kv, km, hk⟩ := decideStep_eq tgt foldBit counts s
  rw [ht, hk]
  rfl

/-- The entry of a candidate holds its count and whether it survives (R205). -/
theorem candTable_allCounts_get {s : State} {tgt : Nibble} {v : BitVec 8} (thresh : Block) (h : IsCandidate tgt v) :
    (candTable thresh (allCounts s tgt)).get v =
      ⟨BitVec.ofNat 17 (agreementCount s tgt v), true, passes thresh (agreementCount s tgt v)⟩ := by
  rw [candTable_get, allCounts_getElem? h, BitVec.ofNat_toNat, BitVec.setWidth_eq]

/-- Every other entry is 0 (R205). -/
theorem candTable_allCounts_get_of_not_candidate {s : State} {tgt : Nibble} {v : BitVec 8} (thresh : Block)
    (h : ¬ IsCandidate tgt v) : (candTable thresh (allCounts s tgt)).get v = ⟨0#17, false, false⟩ := by
  have hlen : (allCounts s tgt).length ≤ v.toNat := by
    rw [allCounts_length]
    exact not_lt.1 h
  rw [candTable_get, List.getElem?_eq_none hlen]

/-- An agreement count fits the 17 bits of COUNT (R198). -/
theorem toNat_ofNat_agreementCount (s : State) (tgt : Nibble) (v : BitVec 8) :
    (BitVec.ofNat 17 (agreementCount s tgt v)).toNat = agreementCount s tgt v := by
  have := agreementCount_le s tgt v
  rw [BitVec.toNat_ofNat, Nat.mod_eq_of_lt (by omega)]

/-- Settles O49: the candidate RAM is the table of the candidates' counts, and the rest is the frame of a scored step. -/
theorem attackStepWritesEveryCandidate : Obligations.AttackStepWritesEveryCandidate := by
  intro s tgt fold ready
  obtain ⟨hcand, -⟩ := decideStep_results tgt fold (allCounts s tgt) s
  refine ⟨_, exec_attackStep_of_ready fold ready, fun v hv => ?_, fun v hv => ?_, decideStep_frame tgt fold _ rfl⟩
  · rw [hcand, candTable_allCounts_get _ hv]
    dsimp only
    rw [toNat_ofNat_agreementCount]
    exact ⟨agreementCount_agreementsUnder s _, rfl, rfl, passes_iff _ _⟩
  · rw [hcand, candTable_allCounts_get_of_not_candidate _ hv]

/-- A scored step's PASS bits count its survivors (R201, R205). -/
theorem passCount_decideStep {s : State} {tgt : Nibble} (foldBit : Bool) (ready : AttackReady s tgt) :
    passCount (decideStep tgt foldBit (allCounts s tgt) s).cand = survivorCount s.atkThresh (allCounts s tgt) := by
  obtain ⟨hcand, -⟩ := decideStep_results tgt foldBit (allCounts s tgt) s
  rw [hcand, passCount_candTable _ _ (allCounts_length_le ready.atMostTwo)]

/-- SURVIVORS holds the number of survivors, for there are at most 256 candidates (R37, R191). -/
theorem toNat_ofNat_survivorCount {s : State} {tgt : Nibble} (thresh : Block) (h : popcount tgt ≤ 2) :
    (BitVec.ofNat 9 (survivorCount thresh (allCounts s tgt))).toNat = survivorCount thresh (allCounts s tgt) := by
  have : survivorCount thresh (allCounts s tgt) ≤ 256 := List.countP_le_length.trans (allCounts_length_le h)
  rw [BitVec.toNat_ofNat, Nat.mod_eq_of_lt (by omega)]

/-- There is a winner only when one candidate survives (R202). -/
theorem winner_eq_zero {thresh : Block} {counts : List Nat} (h : survivorCount thresh counts ≠ 1) :
    winner thresh counts = 0#8 :=
  if_neg h

/-- Settles O50: outcome, winner and ERR by the number of survivors, which is the number of PASS bits. -/
theorem attackStepDecidesBySurvivors : Obligations.AttackStepDecidesBySurvivors := by
  intro s tgt fold ready
  obtain ⟨hcand, -, -, hwin, hstatus, herr⟩ := decideStep_results tgt fold (allCounts s tgt) s
  refine ⟨_, exec_attackStep_of_ready fold ready, ?_⟩
  rw [passCount_decideStep fold ready, hwin, hstatus, herr]
  have hunique := winner_pass s.atkThresh _ (allCounts_length_le (s := s) ready.atMostTwo)
  refine ⟨rfl, toNat_ofNat_survivorCount _ ready.atMostTwo, fun h1 => ?_, fun h0 => ?_, fun h2 => ?_⟩
  · rw [hcand]
    exact ⟨hunique h1, by simp [outcomeOf, h1], by simp [attackReport, Report.ok, h1]⟩
  · have h1 : survivorCount s.atkThresh (allCounts s tgt) ≠ 1 := by omega
    exact ⟨winner_eq_zero h1, by simp [outcomeOf, h0], by simp [attackReport, h0]⟩
  · have h1 : survivorCount s.atkThresh (allCounts s tgt) ≠ 1 := by omega
    have h0 : survivorCount s.atkThresh (allCounts s tgt) ≠ 0 := by omega
    exact ⟨winner_eq_zero h1, by simp [outcomeOf, h0, h1], by simp [attackReport, h0, h1]⟩

/-- A fold marks the target nibbles fully known and leaves the others (R204). -/
theorem nib_or_targetMask (mask : Block) (tgt : Nibble) {j : Nat} (hj : j < 4) :
    nib (mask ||| targetMask tgt) j = if tgt.getLsbD (3 - j) then 0xF#4 else nib mask j := by
  rw [nib_or, nib_targetMask tgt hj]
  split_ifs
  · exact BitVec.or_allOnes
  · exact BitVec.or_zero

/-- Settles O52: FOLDED is the condition under which the known bits take the winner. -/
theorem attackStepFoldsOnlyAUniqueWinner : Obligations.AttackStepFoldsOnlyAUniqueWinner := by
  intro s tgt fold ready
  obtain ⟨-, -, -, hwin, hstatus, -⟩ := decideStep_results tgt fold (allCounts s tgt) s
  obtain ⟨hval, hmask⟩ := decideStep_known tgt fold (allCounts s tgt) s
  refine ⟨_, exec_attackStep_of_ready fold ready, ?_⟩
  rw [passCount_decideStep fold ready, hwin, hstatus, hval, hmask]
  dsimp only
  have hfolds : (fold && decide (survivorCount s.atkThresh (allCounts s tgt) = 1)) = true ↔
      fold = true ∧ survivorCount s.atkThresh (allCounts s tgt) = 1 := by simp
  refine ⟨hfolds, fun h => ?_, fun h => ?_⟩
  · rw [if_pos (hfolds.1 h), if_pos (hfolds.1 h)]
    exact ⟨rfl, fun j hj => nib_or_targetMask _ _ hj⟩
  · have hnot := mt hfolds.2 (Bool.eq_false_iff.1 h)
    exact ⟨if_neg hnot, if_neg hnot⟩

end Sys2Proof.Machine
end

section
/-! PROOFS. The degenerate relations and thresholds of ATTACK_STEP (spec/42_attack_engine.md R199, R200). -/

namespace Sys2Proof.Machine

/-- All 65536 Blocks in ascending order: the plaintexts an agreement count runs over (R198). -/
def allBlocks : List Block := (List.range Config.samples).map (BitVec.ofNat 16)

theorem mem_allBlocks (p : Block) : p ∈ allBlocks :=
  List.mem_map.2 ⟨p.toNat, List.mem_range.2 p.isLt, by simp⟩

theorem allBlocks_nodup : allBlocks.Nodup := by
  refine List.Nodup.map_on (fun a ha b hb hab => ?_) List.nodup_range
  have ha' : a < 65536 := List.mem_range.1 ha
  have hb' : b < 65536 := List.mem_range.1 hb
  have := congrArg BitVec.toNat hab
  rwa [BitVec.toNat_ofNat, BitVec.toNat_ofNat, Nat.mod_eq_of_lt ha', Nat.mod_eq_of_lt hb'] at this

theorem allBlocks_length : allBlocks.length = 65536 := by
  rw [allBlocks, List.length_map, List.length_range, Config.samples]

/-- An agreement count counts Blocks (R198). -/
theorem agreementsUnder_eq_countP (s : State) (key : Block) :
    agreementsUnder s key = allBlocks.countP fun p => !relation s key p := by
  rw [agreementsUnder, allBlocks, List.countP_map]
  rfl

/-- XOR with a fixed Block only reorders the Blocks. -/
theorem allBlocks_map_xor_perm (e : Block) : (allBlocks.map (· ^^^ e)).Perm allBlocks := by
  have hinj : Function.Injective fun p : Block => p ^^^ e := fun _ _ h => (BitVec.xor_left_inj _).1 h
  refine (List.perm_ext_iff_of_nodup (allBlocks_nodup.map hinj) allBlocks_nodup).2 fun p => ?_
  refine iff_of_true (List.mem_map.2 ⟨p ^^^ e, mem_allBlocks _, ?_⟩) (mem_allBlocks p)
  rw [BitVec.xor_assoc, BitVec.xor_self, BitVec.xor_zero]

/-- A test that XOR with some Block always flips holds for half of the Blocks. -/
theorem countP_allBlocks_of_flip {f : Block → Bool} {e : Block} (h : ∀ p, f (p ^^^ e) = !f p) :
    allBlocks.countP f = 32768 := by
  have hflip : allBlocks.countP f = allBlocks.countP fun p => !f p := by
    rw [← (allBlocks_map_xor_perm e).countP_eq f, List.countP_map]
    exact List.countP_congr fun p _ => by simp [h]
  have hsum := List.length_eq_countP_add_countP (l := allBlocks) f
  rw [allBlocks_length] at hsum
  simp only [Bool.not_eq_true, Bool.decide_eq_false] at hsum
  omega

/-- A mask other than 0 has a bit, and the Block of that bit alone has odd parity under it (R11). -/
theorem exists_odd_under_mask {m : Block} (hm : m ≠ 0#16) : ∃ e : Block, parity (e &&& m) = true := by
  have single : ∀ k < 16, parity (BitVec.twoPow 16 k) = true := by decide
  obtain ⟨k, hk⟩ : ∃ k, m.getLsbD k = true := by
    by_contra hno
    refine hm (BitVec.eq_of_getLsbD_eq fun k _ => ?_)
    simpa using not_exists.1 hno k
  refine ⟨BitVec.twoPow 16 k, ?_⟩
  rw [BitVec.twoPow_and, if_pos hk]
  exact single k (BitVec.lt_of_getLsbD hk)

/-- A mask other than 0 gives even parity to half of the Blocks (R199). -/
theorem countP_even_under_mask {m : Block} (hm : m ≠ 0#16) :
    (allBlocks.countP fun p => !parity (p &&& m)) = 32768 := by
  obtain ⟨e, he⟩ := exists_odd_under_mask hm
  refine countP_allBlocks_of_flip (e := e) fun p => ?_
  have hdistrib : (p ^^^ e) &&& m = (p &&& m) ^^^ (e &&& m) := by
    ext k
    simp [Bool.and_xor_distrib_right]
  rw [hdistrib, parity_xor, he, Bool.xor_true]

/-- A relation of no U4 bit is the parity of the plaintext bits it reads (R197). -/
theorem relation_of_no_umask {s : State} (hu : s.atkUmask = 0#16) (key p : Block) :
    relation s key p = parity (p &&& s.atkPmask) := by
  simp [relation, hu]

/-- No deviation exceeds 32768 (R200). -/
theorem deviation_natAbs_le {c : Nat} (h : c ≤ 65536) : (deviation c).natAbs ≤ 32768 := by
  unfold deviation Config.half
  omega

/-- With a threshold of at least 32768 no candidate survives (R199). -/
theorem survivorCount_of_high_thresh {thresh : Block} (s : State) (tgt : Nibble) (h : 32768 ≤ thresh.toNat) :
    survivorCount thresh (allCounts s tgt) = 0 := by
  refine List.countP_eq_zero.2 fun c hc hpass => ?_
  obtain ⟨v, -, rfl⟩ := List.mem_map.1 hc
  have := (passes_iff _ _).1 hpass
  have := deviation_natAbs_le (agreementCount_le s tgt (BitVec.ofNat 8 v))
  omega

/-- Settles O54: the parity of the plaintext alone for the counts, and no survivor for the threshold. -/
theorem degenerateRelationsAndThresholds : Obligations.DegenerateRelationsAndThresholds := by
  refine ⟨fun s tgt v hu => ?_, fun s tgt fold ready hthresh => ?_⟩
  · rw [agreementCount, agreementsUnder_eq_countP]
    simp only [relation_of_no_umask hu]
    refine ⟨fun hp => ?_, countP_even_under_mask⟩
    rw [List.countP_eq_length.2 fun p _ => by simp [hp], allBlocks_length]
  · have h0 := survivorCount_of_high_thresh s tgt hthresh
    obtain ⟨-, -, -, -, hstatus, herr⟩ := decideStep_results tgt fold (allCounts s tgt) s
    obtain ⟨hval, hmask⟩ := decideStep_known tgt fold (allCounts s tgt) s
    refine ⟨_, exec_attackStep_of_ready fold ready, ?_⟩
    rw [hstatus, herr, hval, hmask, h0]
    simp [outcomeOf, attackReport]

end Sys2Proof.Machine
end

section
/-! PROOFS. The key bits ATTACK_STEP does not use (spec/42_attack_engine.md R195, R196). -/

namespace Sys2Proof.Machine

/-- `s` with another KNOWN_VAL. -/
def State.withKnownVal (known : Block) (s : State) : State := { s with knownVal := known }

section Unknown

variable {s : State} {tgt : Nibble} {known : Block}

/-- In the nibbles that ATK_UMASK reads, the trial key is the same for any KNOWN_VAL that agrees in the fully known nibbles
(R194, R195). -/
theorem nib_trialKey_of_agree (hknown : ∀ j < 4, nib s.knownMask j = 0xF#4 → nib known j = nib s.knownVal j)
    {j : Nat} (hj : j < 4) (hread : NibbleReadable s tgt j) (hused : nib s.atkUmask j ≠ 0#4) (v : BitVec 8) :
    nib (trialKey known tgt v) j = nib (trialKey s.knownVal tgt v) j := by
  rw [nib_trialKey _ _ _ hj, nib_trialKey _ _ _ hj]
  obtain hnone | htgt | hfull := hread
  · exact absurd hnone hused
  · rw [if_pos htgt, if_pos htgt]
  · rw [hknown j hj hfull]

/-- The U4 bits that the relation reads, nibble by nibble: nothing else of the trial key reaches it (R196). -/
theorem partialDecrypt_and_umask_congr {key key' : Block}
    (h : ∀ j < 4, nib s.atkUmask j ≠ 0#4 → nib key j = nib key' j) (p : Block) :
    partialDecrypt s key p &&& s.atkUmask = partialDecrypt s key' p &&& s.atkUmask := by
  refine block_ext_nib fun j hj => ?_
  rw [nib_and, nib_and]
  by_cases hused : nib s.atkUmask j = 0#4
  · rw [hused, BitVec.and_zero, BitVec.and_zero]
  · rw [partialDecrypt, partialDecrypt, nib_substitute _ _ hj, nib_substitute _ _ hj, nib_xor, nib_xor, h j hj hused]

/-- Trial keys that agree in the nibbles ATK_UMASK reads have the same agreement count (R197, R198). -/
theorem agreementsUnder_congr {key key' : Block} (h : ∀ j < 4, nib s.atkUmask j ≠ 0#4 → nib key j = nib key' j) :
    agreementsUnder s key = agreementsUnder s key' := by
  simp only [agreementsUnder, relation, partialDecrypt_and_umask_congr h]

/-- The agreement counts do not depend on the nibbles of KNOWN_VAL that are not fully known (R195, R198). -/
theorem allCounts_withKnownVal (hread : ∀ j < 4, NibbleReadable s tgt j)
    (hknown : ∀ j < 4, nib s.knownMask j = 0xF#4 → nib known j = nib s.knownVal j) :
    allCounts (s.withKnownVal known) tgt = allCounts s tgt :=
  List.map_congr_left fun v _ => agreementsUnder_congr fun j hj hused =>
    nib_trialKey_of_agree hknown hj (hread j hj) hused (BitVec.ofNat 8 v)

/-- No check of ATTACK_STEP reads KNOWN_VAL (R195, R199). -/
theorem AttackReady.withKnownVal (ready : AttackReady s tgt) : AttackReady (s.withKnownVal known) tgt :=
  { ready with }

/-- The results, folded or not, take nothing of KNOWN_VAL but KNOWN_VAL itself (R202 to R205). -/
theorem foldedResults_withKnownVal (folds : Bool) (w : BitVec 8) (counts : List Nat) :
    ∃ kv, (if folds then fold tgt w (attackResults tgt folds counts (s.withKnownVal known))
        else attackResults tgt folds counts (s.withKnownVal known)) =
      (if folds then fold tgt w (attackResults tgt folds counts s)
        else attackResults tgt folds counts s).withKnownVal kv := by
  cases folds <;> exact ⟨_, rfl⟩

/-- From the counts on, KNOWN_VAL reaches no field but itself (R199, R201). -/
theorem decideStep_withKnownVal (foldBit : Bool) (counts : List Nat) :
    ∃ kv, decideStep tgt foldBit counts (s.withKnownVal known) =
      (decideStep tgt foldBit counts s).withKnownVal kv := by
  obtain ⟨kv, h⟩ := foldedResults_withKnownVal (s := s) (tgt := tgt) (known := known)
    (foldBit && decide (survivorCount s.atkThresh counts = 1)) (winner s.atkThresh counts) counts
  exact ⟨kv, congrArg (complete (attackReport (survivorCount s.atkThresh counts))) h⟩

end Unknown

/-- Settles O55: the checks and the counts are the same, and the decision reads nothing else of KNOWN_VAL. -/
theorem unknownKeyBitsNeverAffectTheAttack : Obligations.UnknownKeyBitsNeverAffectTheAttack := by
  intro s tgt fold known ready hknown
  have hrun := exec_attackStep_of_ready fold (ready.withKnownVal (known := known))
  obtain ⟨kv, hkv⟩ := decideStep_withKnownVal (s := s) (tgt := tgt) (known := known) fold (allCounts s tgt)
  rw [allCounts_withKnownVal ready.readable hknown, hkv] at hrun
  exact ⟨_, _, exec_attackStep_of_ready fold ready, hrun, rfl⟩

end Sys2Proof.Machine
end

section
/-! PROOFS. The codebook port: the three commands of a load and its records (spec/43_codebook_port.md R231 to R234). -/

namespace Sys2Proof.Machine

/-- Settles O57: the meaning of CB_LOAD_BEGIN is this completion. -/
theorem cbLoadBeginStartsALoad : Obligations.CbLoadBeginStartsALoad := fun _ => rfl

/-- A load in progress with no fault latched: the next record is looked at (R232). -/
structure LoadOpen (s : State) : Prop where
  loading : s.cbLoading = true
  noOverflow : s.loadOvf = false
  inOrder : s.loadOrd = false

/-- `s` with another codebook and count of records: all that an accepted record changes (R232). -/
def State.withRecords (cb : Ram Block 16) (count : BitVec 17) (s : State) : State :=
  { s with cb := cb, loadCount := count }

theorem LoadOpen.withRecords {s : State} (h : LoadOpen s) (cb : Ram Block 16) (count : BitVec 17) :
    LoadOpen (s.withRecords cb count) :=
  { h with }

section Record

variable {s : State} {pt ct : Block}

/-- Without a load, or once a fault is latched, a record is ignored (R232). -/
theorem loadRecord_of_ignored (h : s.cbLoading = false ∨ s.loadOvf = true ∨ s.loadOrd = true) (w : Word) :
    loadRecord w s = s := by
  have ignored : (!s.cbLoading || s.loadOvf || s.loadOrd) = true := by
    obtain h | h | h := h <;> simp [h]
  rw [loadRecord, if_pos ignored]

/-- While records are looked at, the count and the plaintext decide what a record does (R232). -/
theorem LoadOpen.loadRecord_eq (h : LoadOpen s) : loadRecord (pt ++ ct) s =
    if s.loadCount.toNat = 65536 then { s with loadOvf := true }
    else if pt.toNat = s.loadCount.toNat then s.withRecords (s.cb.set pt ct) (s.loadCount + 1#17)
    else { s with loadOrd := true } := by
  obtain ⟨hload, hovf, hord⟩ := h
  have looked : ¬ (!s.cbLoading || s.loadOvf || s.loadOrd) = true := by simp [hload, hovf, hord]
  rw [loadRecord, if_neg looked, record_pt, record_ct, ite_not]
  simp only [loadCount_full_iff, record_expected_iff]
  refine ite_congr rfl (fun _ => rfl) fun _ => ite_congr rfl (fun expected => ?_) fun _ => rfl
  rw [← record_expected_iff.2 expected]
  simp [State.withRecords]

/-- The expected record writes its entry and is counted; no plaintext is expected once all are loaded (R232). -/
theorem LoadOpen.loadRecord_of_expected (h : LoadOpen s) (hpt : pt.toNat = s.loadCount.toNat) :
    loadRecord (pt ++ ct) s = s.withRecords (s.cb.set pt ct) (s.loadCount + 1#17) := by
  have notFull : s.loadCount.toNat ≠ 65536 := hpt ▸ pt.isLt.ne
  rw [h.loadRecord_eq, if_neg notFull, if_pos hpt]

/-- A CB_LOAD write while idle is the record's own rule (R78, R232). -/
theorem writeWindow_cbLoad_idle (hb : s.busy = false) (w : Word) : writeWindow 0xB8#8 w s = loadRecord w s :=
  writeWindow_reg_idle hb .cbLoad w

end Record

/-- The count of an accepted record does not wrap. -/
theorem toNat_loadCount_succ {n : BitVec 17} {pt : Block} (h : pt.toNat = n.toNat) :
    (n + 1#17).toNat = n.toNat + 1 := by
  have := pt.isLt
  bv_omega

/-- Settles O58: the write lock, the ignored records, and the three ends of a record that is looked at. -/
theorem recordWriteLoadsOneEntry : Obligations.RecordWriteLoadsOneEntry := by
  rintro s pt ct t rfl
  refine ⟨fun hb => writeWindow_busy hb (by decide) (by decide) _, fun hb hoff => ?_,
    fun hb hload hovf hord => ?_⟩ <;> rw [writeWindow_cbLoad_idle hb]
  · exact loadRecord_of_ignored hoff _
  · have hopen : LoadOpen s := ⟨hload, hovf, hord⟩
    refine ⟨fun full => ?_, fun notFull other => ?_, fun expected => ?_⟩
    · rw [hopen.loadRecord_eq, if_pos full]
    · rw [hopen.loadRecord_eq, if_neg notFull, if_neg other]
    · rw [hopen.loadRecord_of_expected expected]
      exact ⟨rfl, toNat_loadCount_succ expected, Ram.get_set_self _ _ _, fun q hq => Ram.get_set_other _ _ hq⟩

section Judgement

variable {s : State}

/-- CB_LOAD_END of a load in progress passes its check, and the faults and the count decide (R233). -/
theorem exec_cbLoadEnd_of_loading (h : s.cbLoading = true) : exec .cbLoadEnd s = .next
    (if s.loadOvf then { endedWith s .malformedCodebook 2#4 0#16 with cbLoading := false }
    else if s.loadOrd then
      { endedWith s .malformedCodebook 3#4 (s.loadCount.extractLsb' 0 16) with cbLoading := false }
    else if s.loadCount.toNat < 65536 then
      { endedWith s .malformedCodebook 1#4 (s.loadCount.extractLsb' 0 16) with cbLoading := false }
    else { endedWith s .ok 0#4 0#16 with cbLoading := false, cbValid := true }) := by
  simp only [← loadCount_low]
  show checked (if s.cbLoading then none else some _) s _ = _
  rw [if_pos h]
  rfl

/-- A load without a fault that is short of 65536 records ends with sub 1 and their number (R233). -/
theorem LoadOpen.exec_cbLoadEnd_of_short (h : LoadOpen s) (hn : s.loadCount.toNat < 65536) :
    exec .cbLoadEnd s = .next
      { endedWith s .malformedCodebook 1#4 (s.loadCount.extractLsb' 0 16) with cbLoading := false } := by
  rw [exec_cbLoadEnd_of_loading h.loading, h.noOverflow, h.inOrder, if_pos hn]
  rfl

/-- A load without a fault that has all 65536 records makes the codebook valid (R233). -/
theorem LoadOpen.exec_cbLoadEnd_of_full (h : LoadOpen s) (hn : 65536 ≤ s.loadCount.toNat) :
    exec .cbLoadEnd s = .next { endedWith s .ok 0#4 0#16 with cbLoading := false, cbValid := true } := by
  rw [exec_cbLoadEnd_of_loading h.loading, h.noOverflow, h.inOrder, if_neg hn.not_gt]
  rfl

end Judgement

/-- Settles O59: the check, then the latched faults, then the count. -/
theorem cbLoadEndJudgesTheLoad : Obligations.CbLoadEndJudgesTheLoad := by
  intro s
  refine ⟨fun hload => ?_, fun hload hovf => ?_, fun hload hovf hord => ?_,
    fun hload hovf hord => LoadOpen.exec_cbLoadEnd_of_short ⟨hload, hovf, hord⟩,
    fun hload hovf hord => LoadOpen.exec_cbLoadEnd_of_full ⟨hload, hovf, hord⟩⟩
  · show checked (if s.cbLoading then none else some _) s _ = _
    rw [hload]
    rfl
  · rw [exec_cbLoadEnd_of_loading hload, if_pos hovf]
  · rw [exec_cbLoadEnd_of_loading hload, hovf, if_pos hord]
    rfl

/-- `s` after CB_LOAD writes of the records of `f` for the plaintexts 0 to n - 1, in order. -/
def recordsWritten (f : Block → Block) (s : State) (n : Nat) : State :=
  (List.range n).foldl (fun u p => writeWindow 0xB8#8 (BitVec.ofNat 16 p ++ f (BitVec.ofNat 16 p)) u) s

theorem recordsWritten_succ (f : Block → Block) (s : State) (n : Nat) : recordsWritten f s (n + 1) =
    writeWindow 0xB8#8 (BitVec.ofNat 16 n ++ f (BitVec.ofNat 16 n)) (recordsWritten f s n) := by
  rw [recordsWritten, List.range_succ, List.foldl_append]
  rfl

/-- One more entry of the codebook is the record's. -/
theorem get_set_next {m m' : Ram Block 16} {f : Block → Block} {n : Nat} (hn : n < 65536)
    (h : ∀ q : Block, m.get q = if q.toNat < n then f q else m'.get q) (q : Block) :
    (m.set (BitVec.ofNat 16 n) (f (BitVec.ofNat 16 n))).get q =
      if q.toNat < n + 1 then f q else m'.get q := by
  by_cases hq : q = BitVec.ofNat 16 n
  · subst hq
    rw [Ram.get_set_self, BitVec.toNat_ofNat, Nat.mod_eq_of_lt hn, if_pos n.lt_succ_self]
  · have : q.toNat < n + 1 ↔ q.toNat < n := by bv_omega
    simp only [Ram.get_set_other _ _ hq, h, this]

/-- From a load just begun, each record in order is the expected one, writes its entry and is counted (R231, R232). -/
theorem recordsWritten_eq {s : State} (f : Block → Block) (hb : s.busy = false) (hopen : LoadOpen s)
    (h0 : s.loadCount = 0#17) {n : Nat} (hn : n ≤ 65536) :
    ∃ cb, recordsWritten f s n = s.withRecords cb (BitVec.ofNat 17 n) ∧
      ∀ q : Block, cb.get q = if q.toNat < n then f q else s.cb.get q := by
  induction n with
  | zero => exact ⟨s.cb, by rw [← h0]; rfl, fun q => rfl⟩
  | succ n ih =>
    obtain ⟨cb, hs, hcb⟩ := ih (by omega)
    have stillOpen := hopen.withRecords cb (BitVec.ofNat 17 n)
    have stillIdle : (s.withRecords cb (BitVec.ofNat 17 n)).busy = false := hb
    have expected : (BitVec.ofNat 16 n).toNat = (BitVec.ofNat 17 n).toNat := by
      simp only [BitVec.toNat_ofNat]; omega
    refine ⟨_, ?_, get_set_next hn hcb⟩
    rw [recordsWritten_succ, hs, writeWindow_cbLoad_idle stillIdle, stillOpen.loadRecord_of_expected expected,
      BitVec.ofNat_add]
    rfl

/-- Settles O60, by induction on the number of records: the load stays open, so CB_LOAD_END judges by the count alone. -/
theorem loadOfInOrderRecords : Obligations.LoadOfInOrderRecords := by
  intro s f hb hload h0 hovf hord n hn t ht
  have hopen : LoadOpen s := ⟨hload, hovf, hord⟩
  obtain ⟨cb, hs, hcb⟩ := recordsWritten_eq f hb hopen h0 hn
  obtain rfl := ht.trans hs
  have stillOpen := hopen.withRecords cb (BitVec.ofNat 17 n)
  have count : (BitVec.ofNat 17 n).toNat = n := Nat.mod_eq_of_lt (by omega)
  have info : (BitVec.ofNat 17 n).extractLsb' 0 16 = BitVec.ofNat 16 n := by
    rw [← loadCount_low, BitVec.setWidth_ofNat_of_le (by decide)]
  refine ⟨count, hcb, rfl, fun short => ?_, fun full => stillOpen.exec_cbLoadEnd_of_full ?_⟩
  · rw [← info]
    exact stillOpen.exec_cbLoadEnd_of_short (count.trans_lt short)
  · exact (count.trans full).ge

end Sys2Proof.Machine
end

section
/-! PROOFS. The irq level (spec/60_exceptions.md R269): what raises it and what drops it. -/

namespace Sys2Proof.Machine

/-- While DONE = 1 the level is its enable (R269). -/
theorem irq_of_done {s : State} (h : s.done = true) : irq s = s.irqEn := by
  rw [irq, h, Bool.and_true]

/-- Every command ends with DONE = 1 (R102). -/
theorem exec_done {i : Instr} {s t : State} (h : exec i s = .next t) : t.done = true := by
  obtain ⟨u, hx, -, hdone, -⟩ := everyCommandEndsInAListedOutcome i s
  rwa [Host.Outcome.next.inj (h.symm.trans hx)]

/-- No command writes CTRL (R107). -/
theorem exec_irqEn {i : Instr} {s t : State} (h : exec i s = .next t) : t.irqEn = s.irqEn := by
  obtain ⟨-, -, -, -, -, -, -, hen, -⟩ := commandsLeaveTheHostsRegisters i s t h
  exact hen

/-- Every completion, of a command or of an illegal word, sets DONE and keeps IRQ_EN (R102, R103). -/
theorem completion_done_irqEn {s t : State} (h : completion s = .next t) : t.done = true ∧ t.irqEn = s.irqEn := by
  cases hd : decode s.cmdPending with
  | ok i =>
    rw [completion_of_ok hd] at h
    exact ⟨exec_done h, exec_irqEn h⟩
  | error e =>
    rw [completion_of_error hd] at h
    obtain rfl := Host.Outcome.next.inj h
    exact ⟨rfl, rfl⟩

/-- Settles O32: a completion leaves DONE = 1, so `irq_of_done` gives the level; each write is its own rule for DONE or IRQ_EN. -/
theorem irqFollowsDoneAndItsEnable : Obligations.IrqFollowsDoneAndItsEnable := by
  refine ⟨fun _ => rfl, fun i s t h => ?command, fun s t h => ?completion, fun s v ack => ?acknowledgement,
    fun s w idle => ?acceptance, fun s v done set => ?enable, fun s v clear => ?disable⟩
  case command => rw [irq_of_done (exec_done h), exec_irqEn h]
  case completion =>
    obtain ⟨hdone, hen⟩ := completion_done_irqEn h
    exact ⟨hdone, (irq_of_done hdone).trans hen⟩
  case acknowledgement => simp [writeWindow_status, irq, ack]
  case acceptance =>
    obtain ⟨n, -, accepted⟩ := (cmdWriteIssuesTheWordOnlyWhileIdle s w).1 idle
    simp [accepted, irq]
  case enable => simp [writeWindow_ctrl, irq, done, set]
  case disable =>
    rw [writeWindow_ctrl, clear]
    exact ⟨rfl, rfl⟩

end Sys2Proof.Machine
end

section
/-! PROOFS. Reset (spec/70_reset_and_hazards.md R300, R302): what the registers of the table hold after any reset, and the base case of
the invariant of Safety.lean. -/

namespace Sys2Proof.Machine

open Sys2Proof.Spec

/-- Only the data ports show what a reset leaves free: every other register has the same value after any two resets (R300, R302). -/
theorem Reg.value_resetWith {r : Reg} (hr : r ∉ [.candCount, .candDev, .latData, .cbData]) (n : Nat)
    (q : List HostAction) (l : List BusResponse) : r.value (State.resetWith n q l) = r.value State.reset := by
  cases r with
  | candCount | candDev | latData | cbData => simp at hr
  | _ => rfl

/-- R300's table at power-on, by evaluation; it lists no data port. -/
theorem value_reset : ∀ p ∈ resetReadings,
    p.1 ∉ [Reg.candCount, .candDev, .latData, .cbData] ∧ p.1.value State.reset = p.2 := by decide

/-- R300's table reads so after any reset: no command is in flight then, so no bit of a read is free (R79). -/
theorem readWindow_resetWith (n : Nat) (q : List HostAction) (l : List BusResponse) :
    ∀ p ∈ resetReadings, readWindow p.1.offset (State.resetWith n q l) = p.2 := by
  intro p hp
  obtain ⟨noPort, value⟩ := value_reset p hp
  calc readWindow p.1.offset (State.resetWith n q l)
    _ = p.1.value (State.resetWith n q l) := readWindow_idle rfl p.1
    _ = p.1.value State.reset := Reg.value_resetWith noPort n q l
    _ = p.2 := value

/-- Settles O12: a reset next in the inputs is what the step does (`step_of_reset`), and the power-on state is such a reset's too. -/
theorem resetGivesEveryRegisterItsResetValue : Obligations.ResetGivesEveryRegisterItsResetValue := by
  refine ⟨fun s rest next => ?step, ?powerOn⟩
  case step =>
    exact ⟨_, step_of_reset next, rfl, rfl, rfl, rfl, rfl, rfl, readWindow_resetWith s.draws rest s.busLog⟩
  case powerOn => exact readWindow_resetWith 0 [] []

/-- Settles O36: the power-on state is one of the reset states of `invariant_resetWith`. -/
theorem invariantHoldsAtReset : Obligations.InvariantHoldsAtReset := invariant_resetWith 0 [] []

end Sys2Proof.Machine
end
